-- ==== Sys2Proof/Word.lean ====
section
/-! DEFINITION. The word types of the MIPS-PPS pipeline (spec 00_scope.md R8, R9; 30_encoding.md R71). -/

namespace Sys2Proof

/-- Every register, memory word, ALU result and instruction word is 32 bits (R9, R70). -/
abbrev Word := BitVec 32

/-- A register index, a 5-bit unsigned value (R9). -/
abbrev RegIdx := BitVec 5

/-- The immediate `imm16`, and bits 15–0 of any word (R71). -/
abbrev Half := BitVec 16

/-- An opcode or a function field, 6 bits (R71). -/
abbrev Code6 := BitVec 6

end Sys2Proof
end

