-- ==== Sys2Proof/Config.lean ====
section
/-! DEFINITION. The implementation parameters of spec 00_scope.md R7. Two of them a model takes as configuration:
`UNHANDLED_MODE` and `REG_SEED`. No value is left free by an opaque constant: the spec's rules give every value a step
writes, and the two parameters are plain data, so that every statement ranges over them. -/

namespace Sys2Proof

/-- `MEM_WORDS` (R7): word indices 0 to 1023. -/
def memWords : Nat := 1024

/-- `ALUOP_RFMT` (R7), the register-format marker of `aluOp`; the number is the spec's decision D9 (log entry 9). -/
def aluOpRfmt : BitVec 2 := 0b10#2

/-- The function values of ADD and SUB (30_encoding.md R79). -/
def functAdd : Code6 := 0x20#6
def functSub : Code6 := 0x22#6

/-- The three opcodes the block handles (30_encoding.md R78). -/
def opRfmt : Code6 := 0x00#6
def opLoad : Code6 := 0x20#6
def opStore : Code6 := 0x28#6

/-- `UNHANDLED_MODE` (60_exceptions.md R202): what an unhandled opcode or function does. -/
inductive UnhandledMode where
  /-- The default: the stage raises a fault. -/
  | fault
  /-- The source's reference behaviour: the latch fields keep their stale contents. -/
  | retain
  deriving DecidableEq, Repr

/-- The configuration of a machine (R7). Slot 0 of `regSeed` is read by nothing: `x[0]` is 0 at reset (10_state.md R40). -/
structure Config where
  unhandledMode : UnhandledMode
  regSeed : Vector Word 32
  deriving DecidableEq, Repr

/-- The constraints of 10_state.md R40 on `REG_SEED`: non-zero and pairwise distinct over the indices 1 to 31. -/
abbrev Config.admissible (c : Config) : Prop :=
  (∀ i : Fin 32, i ≠ 0 → c.regSeed.get i ≠ 0) ∧
  (∀ i j : Fin 32, i ≠ 0 → j ≠ 0 → i ≠ j → c.regSeed.get i ≠ c.regSeed.get j)

/-- The seeds `State.reset` uses. DESIGN CHOICE (unsafe, log entry 1): the spec leaves the values OPEN; seed i is i. -/
def defaultSeed : Vector Word 32 :=
  #v[0, 1, 2, 3, 4, 5, 6, 7, 8, 9, 10, 11, 12, 13, 14, 15,
     16, 17, 18, 19, 20, 21, 22, 23, 24, 25, 26, 27, 28, 29, 30, 31]

/-- The configuration of `State.reset`: the default mode (R202) and the seeds above. -/
def Config.default : Config := { unhandledMode := .fault, regSeed := defaultSeed }

end Sys2Proof
end

