-- ==== Sys2Proof/Syntax.lean ====
section
/-! DEFINITION. The instructions: one constructor per row of spec/opcode_table.json. An instruction keeps every bit of its
word, the ignored bits 10–6 of an R-format word too (30_encoding.md R74: they reach `DE.seOffset`). -/

namespace Sys2Proof

/-- The rows of the opcode table (30_encoding.md R78 to R80). The last of the R-format rows and the last row are "not an
instruction" in the spec's words, but their behaviour is fixed (42_register_format.md R162; 60_exceptions.md R205). -/
inductive Instr where
  /-- The all-zero word (41_noop.md R150). -/
  | nop
  /-- ADD (42_register_format.md R160); `x` is bits 10–6. -/
  | add (rs rt rd : RegIdx) (x : BitVec 5)
  /-- SUB (R161). -/
  | sub (rs rt rd : RegIdx) (x : BitVec 5)
  /-- An opcode-0 word other than the all-zero word whose function is neither ADD's nor SUB's (R162). -/
  | rfmtUnhandledFunct (rs rt rd : RegIdx) (x : BitVec 5) (funct : Code6)
  /-- LOAD (43_load_store.md R180). -/
  | load (rs rt : RegIdx) (imm : Half)
  /-- STORE (R182). -/
  | store (rs rt : RegIdx) (imm : Half)
  /-- A word whose opcode is not 0x00, 0x20 or 0x28; `rest` is bits 25–0 (60_exceptions.md R205). -/
  | unhandledOpcode (op : Code6) (rest : BitVec 26)
  deriving DecidableEq, Repr

end Sys2Proof
end

