-- ==== Sys2Proof/WellFormed.lean ====
section
/-! DEFINITION. Which instruction terms stand for a word of their own table row (30_encoding.md R78 to R80). -/

namespace Sys2Proof

/-- A catch-all row holds only the words the rows before it leave: an R-format word with an unhandled function is not ADD, not
SUB and not the all-zero word (42_register_format.md R162); an unhandled opcode is none of the three handled ones (R78). -/
def Instr.wellFormed : Instr → Bool
  | .nop => true
  | .add _ _ _ _ => true
  | .sub _ _ _ _ => true
  | .rfmtUnhandledFunct rs rt rd x funct =>
      funct != functAdd && funct != functSub && !(rs == 0 && rt == 0 && rd == 0 && x == 0 && funct == 0)
  | .load _ _ _ => true
  | .store _ _ _ => true
  | .unhandledOpcode op _ => op != opRfmt && op != opLoad && op != opStore

end Sys2Proof
end

