-- ==== Sys2Proof/Decode.lean ====
section
/-! DEFINITION. The decoder and the encoder (spec 30_encoding.md). Decoding is total on all 2^32 words: R78 gives every word
exactly one class, and the two unhandled sets have a constructor each, so no word is without an instruction. Words reach the
block whole, never as bytes (20_memory.md R54), so the decoder takes a word. -/

namespace Sys2Proof

/-- The field table of R71, each field read at the bits the spec gives it. -/
def fieldOp (w : Word) : Code6 := w.extractLsb' 26 6
def fieldRs (w : Word) : RegIdx := w.extractLsb' 21 5
def fieldRt (w : Word) : RegIdx := w.extractLsb' 16 5
def fieldRd (w : Word) : RegIdx := w.extractLsb' 11 5
def fieldIgnored (w : Word) : BitVec 5 := w.extractLsb' 6 5
def fieldFunct (w : Word) : Code6 := w.extractLsb' 0 6
def fieldImm16 (w : Word) : Half := w.extractLsb' 0 16
def fieldRest (w : Word) : BitVec 26 := w.extractLsb' 0 26

/-- The R-format words other than the all-zero word, by function (R79). -/
def decodeRfmt (w : Word) : Instr :=
  if fieldFunct w = functAdd then .add (fieldRs w) (fieldRt w) (fieldRd w) (fieldIgnored w)
  else if fieldFunct w = functSub then .sub (fieldRs w) (fieldRt w) (fieldRd w) (fieldIgnored w)
  else .rfmtUnhandledFunct (fieldRs w) (fieldRt w) (fieldRd w) (fieldIgnored w) (fieldFunct w)

/-- The class test of R78 in its order: the all-zero word first, then the opcode. -/
def decode (w : Word) : Instr :=
  if w = 0x00000000#32 then .nop
  else if fieldOp w = opRfmt then decodeRfmt w
  else if fieldOp w = opLoad then .load (fieldRs w) (fieldRt w) (fieldImm16 w)
  else if fieldOp w = opStore then .store (fieldRs w) (fieldRt w) (fieldImm16 w)
  else .unhandledOpcode (fieldOp w) (fieldRest w)

/-- Bits 15–0 of an R-format word: rd, the ignored bits, funct (R72). -/
def lowRfmt (rd : RegIdx) (x : BitVec 5) (funct : Code6) : Half := rd ++ x ++ funct

/-- A word from its opcode, its two register fields and its low half (R72, R73). -/
def packWord (op : Code6) (rs rt : RegIdx) (low : Half) : Word := op ++ rs ++ rt ++ low

/-- A word from its opcode and its other 26 bits, for the rows that name no other field. -/
def packOpcode (op : Code6) (rest : BitVec 26) : Word := op ++ rest

/-- The word of an instruction, from the encoding tables R72, R73 and R82. -/
def encode : Instr → Word
  | .nop => 0x00000000#32
  | .add rs rt rd x => packWord opRfmt rs rt (lowRfmt rd x functAdd)
  | .sub rs rt rd x => packWord opRfmt rs rt (lowRfmt rd x functSub)
  | .rfmtUnhandledFunct rs rt rd x funct => packWord opRfmt rs rt (lowRfmt rd x funct)
  | .load rs rt imm => packWord opLoad rs rt imm
  | .store rs rt imm => packWord opStore rs rt imm
  | .unhandledOpcode op rest => packOpcode op rest

/-- The word a table row's bits stand for: bit 0 is the word's bit 0 (R8), and bits above `nbits` are 0. -/
def tableWord (nbits w : Nat) : Word := BitVec.ofNat 32 (w % 2 ^ nbits)

/-- The instruction the decoder reads from an instruction whose bits are `w`; none is longer than one word (R70). -/
def decodeTableWord (nbits w : Nat) : Option Instr :=
  if nbits ≤ 32 then some (decode (tableWord nbits w)) else none

end Sys2Proof
end

