-- ==== Sys2Proof/Machine/State.lean ====
section
/-! DEFINITION. The state of the block (spec 10_state.md), the ways a step can stop, and the state after reset. -/

namespace Sys2Proof.Machine

/-- The register file: 32 slots of 32 bits, all alike; index 0 is not hard-wired (R20, R21). -/
abbrev RegFile := Vector Word 32

/-- Main memory (R23): the words that differ from their initial contents, as (word index, word) pairs with the indices
strictly rising. The smallest unit the spec knows is the 32-bit word (20_memory.md R50, R54), so a cell is a word
(log entry 2). -/
abbrev Memory := List (Nat × Word)

/-- The Fetch/Decode latch (R27). -/
structure FDLatch where
  instr : Word
  deriving DecidableEq, Repr

/-- The Decode/Execute latch, thirteen fields (R28). -/
structure DELatch where
  aluSrc : Bool
  memRead : Bool
  memToReg : Bool
  memWrite : Bool
  regDst : Bool
  regWrite : Bool
  aluOp : BitVec 2
  seOffset : Word
  funct : Code6
  writeRegR : RegIdx
  writeRegI : RegIdx
  readData1 : Word
  readData2 : Word
  deriving DecidableEq, Repr

/-- The Execute/Memory latch, seven fields (R29). -/
structure EMLatch where
  memRead : Bool
  memToReg : Bool
  memWrite : Bool
  regWrite : Bool
  aluResult : Word
  swValue : Word
  writeRegNum : RegIdx
  deriving DecidableEq, Repr

/-- The Memory/Writeback latch, five fields (R30). -/
structure MWLatch where
  memToReg : Bool
  regWrite : Bool
  lwData : Word
  aluResult : Word
  writeRegNum : RegIdx
  deriving DecidableEq, Repr

/-- One side of the four latch pairs. `State` holds two of these, `write` and `read` (R25). -/
structure LatchSide where
  fd : FDLatch
  de : DELatch
  em : EMLatch
  mw : MWLatch
  deriving DecidableEq, Repr

/-- The all-zero latches of R42, and the bubbles of R31. -/
def FDLatch.zero : FDLatch := { instr := 0 }
def DELatch.zero : DELatch :=
  { aluSrc := false, memRead := false, memToReg := false, memWrite := false, regDst := false, regWrite := false,
    aluOp := 0, seOffset := 0, funct := 0, writeRegR := 0, writeRegI := 0, readData1 := 0, readData2 := 0 }
def EMLatch.zero : EMLatch :=
  { memRead := false, memToReg := false, memWrite := false, regWrite := false, aluResult := 0, swValue := 0, writeRegNum := 0 }
def MWLatch.zero : MWLatch :=
  { memToReg := false, regWrite := false, lwData := 0, aluResult := 0, writeRegNum := 0 }
def LatchSide.zero : LatchSide := { fd := .zero, de := .zero, em := .zero, mw := .zero }

/-- The kind of a fault with the information recorded for it (60_exceptions.md R201). -/
inductive FaultCause where
  /-- An unhandled opcode at Decode in Fault mode; the info is the instruction word. -/
  | unhandledOpcode (word : Word)
  /-- An unhandled function at Execute in Fault mode; the info is the 6-bit function. -/
  | unhandledFunct (funct : Code6)
  /-- A load or store outside the 1024 words at Memory-Access; the info is the 32-bit address. -/
  | memOutOfRange (address : Word)
  deriving DecidableEq, Repr

/-- The stages that can raise a fault (R203, R204). -/
inductive Stage where
  | decode
  | execute
  | memoryAccess
  deriving DecidableEq, Repr

/-- The fault record of R203: kind and info (the cause), the number of the faulting step, and the stage. -/
structure FaultRecord where
  cause : FaultCause
  step : Nat
  stage : Stage
  deriving DecidableEq, Repr

/-- What a completed step exposes (40_pipeline.md R133): both sides of all four latches before Commit, and the register file
after that step's Write-Back. -/
structure Snapshot where
  write : LatchSide
  read : LatchSide
  regs : RegFile
  deriving DecidableEq, Repr

/-- The state of the block (R35), with three fields of the model's own: `config`, which no step changes (log entry 3), the
host's remaining words `input` (log entry 4), and the output `snapshots` (log entry 5). -/
structure State where
  /-- UNHANDLED_MODE and REG_SEED (00_scope.md R7): configuration, not state of the block. -/
  config : Config
  /-- The register file RF (R20). -/
  regs : RegFile
  /-- Main memory MEM (R23). -/
  mem : Memory
  /-- The write sides `L.w`: FD, DE, EM, MW (R25, R26). -/
  write : LatchSide
  /-- The read sides `L.r` (R25). -/
  read : LatchSide
  /-- The number of completed steps (R24, R33). -/
  steps : Nat
  /-- The fault record, none while the block runs (R33). -/
  fault : Option FaultRecord
  /-- The words the host has still to supply, next word first (40_pipeline.md R130). -/
  input : List Word
  /-- The snapshots exposed so far, oldest first (40_pipeline.md R133; 70_reset_and_hazards.md R236). -/
  snapshots : List Snapshot
  deriving DecidableEq, Repr

/-- Why the machine stops with a fault. Raising one of the three faults of 60_exceptions.md is a NEXT state with `fault` set,
as R203 describes it; what stops is the machine that has it set. -/
inductive Fault where
  /-- Raised by every instruction and by `step` in a state whose `fault` is set: "from a faulted state no step exists"
  (40_pipeline.md R101). Safe: no behaviour is claimed past a fault. -/
  | halted (record : FaultRecord)
  deriving DecidableEq, Repr

/-- Why there is no step to take. -/
inductive Refusal where
  /-- An instruction of the table without a meaning in this model; no arm of `exec` answers it. Safe. -/
  | notModelled (mnemonic : String)
  /-- Raised by every instruction and by `step` when the host has no word left: the run has ended (40_pipeline.md R132).
  Safe: no behaviour is claimed without a word. DESIGN CHOICE, log entry 11. -/
  | streamExhausted
  deriving DecidableEq, Repr

/-- The reset state of a machine with configuration `c` (R40 to R43; 70_reset_and_hazards.md R230): `x[0]` is 0, the other
registers hold their seeds, memory holds its initial contents, every latch field is 0. -/
def State.resetWith (c : Config) : State :=
  { config := c, regs := c.regSeed.set 0 0, mem := [], write := .zero, read := .zero, steps := 0, fault := none,
    input := [], snapshots := [] }

/-- The machine right after reset, with the default mode and the seeds of log entry 1. -/
def State.reset : State := State.resetWith Config.default

end Sys2Proof.Machine
end

