-- ==== Sys2Proof/Machine/Flags.lean ====
section
/-! DEFINITION. The block has no flags and no condition codes (10_state.md R32); what a class of instruction switches on are
the control signals of 40_pipeline.md R107, held here as one row per class. -/

namespace Sys2Proof.Machine

/-- One row of the control table. -/
structure ControlRow where
  aluOp : BitVec 2
  aluSrc : Bool
  memRead : Bool
  memToReg : Bool
  memWrite : Bool
  regDst : Bool
  regWrite : Bool
  deriving DecidableEq, Repr

/-- The rows of R107; STORE's two don't-cares are written `false` (R108). -/
def rowNop : ControlRow :=
  { aluOp := 0, aluSrc := false, memRead := false, memToReg := false, memWrite := false, regDst := false, regWrite := false }
def rowRfmt : ControlRow :=
  { aluOp := aluOpRfmt, aluSrc := false, memRead := false, memToReg := false, memWrite := false, regDst := true,
    regWrite := true }
def rowLoad : ControlRow :=
  { aluOp := 0, aluSrc := true, memRead := true, memToReg := true, memWrite := false, regDst := false, regWrite := true }
def rowStore : ControlRow :=
  { aluOp := 0, aluSrc := true, memRead := false, memToReg := false, memWrite := true, regDst := false, regWrite := false }

end Sys2Proof.Machine
end

