-- ==== Sys2Proof/Machine/Ops.lean ====
section
/-! DEFINITION. The named operations over memory and registers, and raising a fault. -/

namespace Sys2Proof.Machine

/-- What memory word `i` holds before any store, and so what an unlisted word reads as: `i mod 256` (10_state.md R41). -/
def memInit (i : Nat) : Word := BitVec.ofNat 32 (i % 256)

/-- The canonical form of a memory: indices strictly rising, every index a word of the array, no listed word equal to its
initial contents. -/
abbrev Memory.wf (m : Memory) : Prop :=
  m.Pairwise (fun c d => c.1 < d.1) ∧ ∀ c ∈ m, c.1 < memWords ∧ c.2 ≠ memInit c.1

/-- The word at index `i`. -/
def memGet : Memory → Nat → Word
  | [], i => memInit i
  | (j, u) :: m, i => if i = j then u else memGet m i

/-- The cells that hold `v` at index `i`: none where `v` is the initial contents. -/
def memCell (i : Nat) (v : Word) : Memory := if v = memInit i then [] else [(i, v)]

/-- Replaces the word at index `i`, keeping the canonical form. -/
def memSet : Memory → Nat → Word → Memory
  | [], i, v => memCell i v
  | (j, u) :: m, i, v =>
    if i < j then memCell i v ++ (j, u) :: m
    else if i = j then memCell i v ++ m
    else (j, u) :: memSet m i v

/-- An address is in range exactly when, read as an unsigned number, it is below 1024 (20_memory.md R53). -/
def inRange (a : Word) : Bool := decide (a.toNat < memWords)

/-- `MemRead(a, 1)` (00_scope.md R10): the whole word, or MemOutOfRange (60_exceptions.md R207). -/
def memLoad (m : Memory) (a : Word) : Except FaultCause Word :=
  if inRange a then .ok (memGet m a.toNat) else .error (.memOutOfRange a)

/-- `MemWrite(a, 1, v)` (R10): exactly that word (20_memory.md R57), or MemOutOfRange. -/
def memStore (m : Memory) (a v : Word) : Except FaultCause Memory :=
  if inRange a then .ok (memSet m a.toNat v) else .error (.memOutOfRange a)

/-- `x[r]` (R10). No index is special (10_state.md R21). -/
def regGet (rf : RegFile) (r : RegIdx) : Word := rf[r.toNat]'r.isLt

/-- `x[r] <- v` (R10). A write to index 0 succeeds (R21). -/
def regSet (rf : RegFile) (r : RegIdx) (v : Word) : RegFile := rf.set r.toNat v r.isLt

/-- The fault codes of 60_exceptions.md R201. -/
def faultCode : FaultCause → Nat
  | .unhandledOpcode _ => 1
  | .unhandledFunct _ => 2
  | .memOutOfRange _ => 3

/-- The stage that raises each fault (R201). -/
def faultStage : FaultCause → Stage
  | .unhandledOpcode _ => .decode
  | .unhandledFunct _ => .execute
  | .memOutOfRange _ => .memoryAccess

/-- Raising a fault (R203; 40_pipeline.md R124), given the state BEFORE the step: that state with the record set. The step's
number is one more than the completed steps. There is no trap entry and no return (R210). -/
def takeFault (c : FaultCause) (s : State) : State :=
  { s with fault := some { cause := c, step := s.steps + 1, stage := faultStage c } }

end Sys2Proof.Machine
end

