-- ==== Sys2Proof/Machine/Operands.lean ====
section
/-! DEFINITION. The operand forms (30_encoding.md R75 to R77) and the ALU (R79; 42_register_format.md R163). -/

namespace Sys2Proof.Machine

/-- `sext_32` (R75): bit 15 is copied into bits 31–16. -/
def sext32 (v : Half) : Word := v.signExtend 32

/-- The `funct` and `writeRegR` fields as Decode takes them from bits 15–0 of every word (40_pipeline.md R106). -/
def lowFunct (low : Half) : Code6 := low.extractLsb' 0 6
def lowWriteRegR (low : Half) : RegIdx := low.extractLsb' 11 5

/-- What Decode writes into DE for a handled word with control row `row`, register fields `rs` and `rt` and bits 15–0 `low`:
the data fields are taken from every word alike (R76, R106), and both registers are read. -/
def decodedLatch (row : ControlRow) (rs rt : RegIdx) (low : Half) (rf : RegFile) : DELatch :=
  { aluSrc := row.aluSrc, memRead := row.memRead, memToReg := row.memToReg, memWrite := row.memWrite,
    regDst := row.regDst, regWrite := row.regWrite, aluOp := row.aluOp,
    seOffset := sext32 low, funct := lowFunct low, writeRegR := lowWriteRegR low, writeRegI := rt,
    readData1 := regGet rf rs, readData2 := regGet rf rt }

/-- The register-format branch test (40_pipeline.md R112). -/
def registerBranch (d : DELatch) : Bool := d.aluOp == aluOpRfmt && !d.aluSrc

/-- The register-format operation (R79, R113): none where the function is unhandled. -/
def aluRegister (funct : Code6) (a b : Word) : Option Word :=
  if funct = functAdd then some (a + b) else if funct = functSub then some (a - b) else none

/-- Base plus sign-extended offset, modulo 2^32 (R114; 43_load_store.md R183). -/
def effectiveAddress (base offset : Word) : Word := base + offset

/-- What Execute writes into EM beside the result and the destination: the four controls and the second operand pass
through (R111, R116). -/
def executedLatch (d : DELatch) (result : Word) (dest : RegIdx) : EMLatch :=
  { memRead := d.memRead, memToReg := d.memToReg, memWrite := d.memWrite, regWrite := d.regWrite,
    aluResult := result, swValue := d.readData2, writeRegNum := dest }

/-- What Memory-Access writes into MW: the loaded value, and the four fields that pass through (R118, R119). -/
def accessedLatch (e : EMLatch) (loaded : Word) : MWLatch :=
  { memToReg := e.memToReg, regWrite := e.regWrite, lwData := loaded, aluResult := e.aluResult,
    writeRegNum := e.writeRegNum }

/-- The write-back multiplexer (R122). -/
def writeBackValue (m : MWLatch) : Word := if m.memToReg then m.lwData else m.aluResult

end Sys2Proof.Machine
end

