-- ==== Sys2Proof/Machine/Stages.lean ====
section
/-! DEFINITION. The five stages, the snapshot, Commit, and one whole step (40_pipeline.md R100 to R128). Every stage works on
the working copy of R128; a stage that raises a fault answers `.error`. -/

namespace Sys2Proof.Machine

/-- What the word in Decode makes Decode do: a handled word writes its row and fields, an unhandled one is subject to
UNHANDLED_MODE (R106 to R109). -/
inductive DecodeAction where
  | latch (row : ControlRow) (rs rt : RegIdx) (low : Half)
  | unhandled (word : Word)
  deriving DecidableEq, Repr

/-- Fetch (R104). -/
def fetchStage (w : Word) (t : State) : State := { t with write.fd.instr := w }

/-- Decode (R110; 60_exceptions.md R205). -/
def decodeStage (d : DecodeAction) (t : State) : Except FaultCause State :=
  match d with
  | .latch row rs rt low => .ok { t with write.de := decodedLatch row rs rt low t.regs }
  | .unhandled word =>
    match t.config.unhandledMode with
    | .fault => .error (.unhandledOpcode word)
    | .retain => .ok t

/-- What Execute makes of the latch `d`, given UNHANDLED_MODE and the stale result `old` of the write side (R117;
60_exceptions.md R206). -/
def executeLatch (mode : UnhandledMode) (old : Word) (d : DELatch) : Except FaultCause EMLatch :=
  if registerBranch d then
    match aluRegister d.funct d.readData1 d.readData2 with
    | some r => .ok (executedLatch d r d.writeRegR)
    | none =>
      match mode with
      | .fault => .error (.unhandledFunct d.funct)
      | .retain => .ok (executedLatch d old d.writeRegR)
  else .ok (executedLatch d (effectiveAddress d.readData1 d.seOffset) d.writeRegI)

/-- Execute (R117). -/
def executeStage (t : State) : Except FaultCause State :=
  match executeLatch t.config.unhandledMode t.write.em.aluResult t.read.de with
  | .ok e => .ok { t with write.em := e }
  | .error c => .error c

/-- What Memory-Access makes of the latch `e` and the memory: the new memory and the loaded value (R118, R120, R121). -/
def accessMemory (e : EMLatch) (m : Memory) : Except FaultCause (Memory × Word) :=
  if e.memRead then
    match memLoad m e.aluResult with
    | .ok v => .ok (m, v)
    | .error c => .error c
  else if e.memWrite then
    match memStore m e.aluResult e.swValue with
    | .ok m' => .ok (m', 0)
    | .error c => .error c
  else .ok (m, 0)

/-- Memory-Access (R118). -/
def memoryStage (t : State) : Except FaultCause State :=
  match accessMemory t.read.em t.mem with
  | .ok (m, v) => .ok { t with mem := m, write.mw := accessedLatch t.read.em v }
  | .error c => .error c

/-- Write-Back's new register file (R122). -/
def writeBackRegs (m : MWLatch) (rf : RegFile) : RegFile :=
  if m.regWrite then regSet rf m.writeRegNum (writeBackValue m) else rf

/-- Write-Back (R122). -/
def writeBackStage (t : State) : State := { t with regs := writeBackRegs t.read.mw t.regs }

/-- The snapshot, taken after Write-Back and before Commit (R123, R133). -/
def exposeSnapshot (t : State) : State :=
  { t with snapshots := t.snapshots ++ [{ write := t.write, read := t.read, regs := t.regs }] }

/-- Commit copies every write side to its read side and leaves the write sides (R125); the step then counts (R127). -/
def commit (t : State) : State := { t with read := t.write, steps := t.steps + 1 }

/-- The stages in their order on the working copy `t`, with the supplied word `w`; the first fault ends them (R100,
60_exceptions.md R204). -/
def runStages (d : DecodeAction) (w : Word) (t : State) : Except FaultCause State :=
  match decodeStage d (fetchStage w t) with
  | .error c => .error c
  | .ok t1 =>
    match executeStage t1 with
    | .error c => .error c
    | .ok t2 =>
      match memoryStage t2 with
      | .error c => .error c
      | .ok t3 => .ok (writeBackStage t3)

/-- One step in which Decode does `d` (R128): no step from a faulted state (R101), none without a word (R132); a fault leaves
the state before the step with the record set (R124). The step's word is consumed either way (log entry 12). -/
def clockStep (d : DecodeAction) (s : State) : Host.Outcome State Fault Refusal :=
  match s.fault with
  | some r => .fault (.halted r)
  | none =>
    match s.input with
    | [] => .refused .streamExhausted
    | w :: rest =>
      match runStages d w { s with input := rest } with
      | .error c => .next (takeFault c { s with input := rest })
      | .ok t => .next (commit (exposeSnapshot t))

end Sys2Proof.Machine
end

