-- ==== Sys2Proof/Machine/MemoryFormat.lean ====
section
/-! DEFINITION. The memory-format instructions (43_load_store.md). -/

namespace Sys2Proof.Machine

/-- LOAD (R180). -/
def execLoad (rs rt : RegIdx) (imm : Half) (s : State) : Host.Outcome State Fault Refusal :=
  clockStep (.latch rowLoad rs rt imm) s

/-- STORE (R182). -/
def execStore (rs rt : RegIdx) (imm : Half) (s : State) : Host.Outcome State Fault Refusal :=
  clockStep (.latch rowStore rs rt imm) s

end Sys2Proof.Machine
end

