-- ==== Sys2Proof/Machine/Noop.lean ====
section
/-! DEFINITION. The no-operation (41_noop.md). The meaning of an instruction is the step in which its word stands in the
Decode stage (log entry 13): Decode does what the instruction makes it do, the other stages serve the instructions before it,
and the next word is fetched. Its later stages are driven by what Decode latched. -/

namespace Sys2Proof.Machine

/-- NOP (R150): every control signal false, every field 0, `x[0]` read for both operands. -/
def execNop (s : State) : Host.Outcome State Fault Refusal :=
  clockStep (.latch rowNop 0 0 0) s

end Sys2Proof.Machine
end

