-- ==== Sys2Proof/Machine/RegisterFormat.lean ====
section
/-! DEFINITION. The register-format instructions (42_register_format.md). Decode gives every one the RFMT row; Execute tells
them apart by the latched function (30_encoding.md R79). -/

namespace Sys2Proof.Machine

/-- ADD (R160). -/
def execAdd (rs rt rd : RegIdx) (x : BitVec 5) (s : State) : Host.Outcome State Fault Refusal :=
  clockStep (.latch rowRfmt rs rt (lowRfmt rd x functAdd)) s

/-- SUB (R161). -/
def execSub (rs rt rd : RegIdx) (x : BitVec 5) (s : State) : Host.Outcome State Fault Refusal :=
  clockStep (.latch rowRfmt rs rt (lowRfmt rd x functSub)) s

/-- A register-format word with an unhandled function (R162): Decode does not fault on it; Execute will, or will keep its
stale result. -/
def execRfmtUnhandledFunct (rs rt rd : RegIdx) (x : BitVec 5) (funct : Code6) (s : State) :
    Host.Outcome State Fault Refusal :=
  clockStep (.latch rowRfmt rs rt (lowRfmt rd x funct)) s

end Sys2Proof.Machine
end

