-- ==== Sys2Proof/Machine/UnhandledOpcode.lean ====
section
/-! DEFINITION. A word whose opcode is in no table (60_exceptions.md R205). -/

namespace Sys2Proof.Machine

/-- Fault mode: Decode raises UnhandledOpcode with the word. Retain mode: Decode writes no field of DE. -/
def execUnhandledOpcode (op : Code6) (rest : BitVec 26) (s : State) : Host.Outcome State Fault Refusal :=
  clockStep (.unhandled (packOpcode op rest)) s

end Sys2Proof.Machine
end

