-- ==== Sys2Proof/Machine/Dispatch.lean ====
section
/-! DEFINITION. The dispatch: one arm per row of spec/opcode_table.json, each one direct call of that row's meaning. -/

namespace Sys2Proof.Machine

def exec (i : Instr) (s : State) : Host.Outcome State Fault Refusal :=
  match i with
  | .nop => Sys2Proof.Machine.execNop s
  | .add rs rt rd x => Sys2Proof.Machine.execAdd rs rt rd x s
  | .sub rs rt rd x => Sys2Proof.Machine.execSub rs rt rd x s
  | .rfmtUnhandledFunct rs rt rd x funct => Sys2Proof.Machine.execRfmtUnhandledFunct rs rt rd x funct s
  | .load rs rt imm => Sys2Proof.Machine.execLoad rs rt imm s
  | .store rs rt imm => Sys2Proof.Machine.execStore rs rt imm s
  | .unhandledOpcode op rest => Sys2Proof.Machine.execUnhandledOpcode op rest s

end Sys2Proof.Machine
end

