-- ==== Sys2Proof/Machine/HostInterface.lean ====
section
/-! DEFINITION. What the host does to the block (40_pipeline.md R130 to R135): reset it, supply words, place one word where
the next step's Decode stage takes it. -/

namespace Sys2Proof.Machine

/-- The word in the Decode stage: "Decode's input is `i = FD.r.instr`" (R105). -/
def wordInDecode (s : State) : Word := s.read.fd.instr

/-- `rst` (R135): the reset state of this machine's own configuration, with the same seeds at every reset (10_state.md R40). -/
def hostReset (s : State) : State := State.resetWith s.config

/-- The host supplies further words, in the order given (R130). -/
def supplyWords (ws : List Word) (s : State) : State := { s with input := s.input ++ ws }

/-- `s` as the step that fetched `w` leaves the Fetch/Decode latch, both sides alike after its Commit (R104, R125), and with a
no-op word to fetch where the host has supplied none, because a step takes one word (R130). -/
def placeFetched (w : Word) (s : State) : State :=
  { s with
    write.fd.instr := w
    read.fd.instr := w
    input := if s.input.isEmpty then [0x00000000#32] else s.input }

end Sys2Proof.Machine
end

