-- ==== Sys2Proof/Machine/Step.lean ====
section
/-! DEFINITION. One step: the word fetched in the step before is decoded and run (40_pipeline.md R103, R105). -/

namespace Sys2Proof.Machine

/-- One simulated step (R100). -/
def step (s : State) : Host.Outcome State Fault Refusal := exec (decode (wordInDecode s)) s

/-- `s` with the instruction of the table's bits placed where the very next step decodes and runs it (log entry 4). -/
def State.withFetchWord (s : State) (nbits w : Nat) : State := placeFetched (tableWord nbits w) s

/-- At most `n` steps; a state with no step is the end state (70_reset_and_hazards.md R235). -/
def runSteps : Nat → State → State
  | 0, s => s
  | n + 1, s =>
    match step s with
    | .next t => runSteps n t
    | .fault _ => s
    | .refused _ => s

/-- The run on a supplied sequence (R235): one step per word from the reset state, ending after the last word or at the first
fault. The end state and its `snapshots` are the observation of R236. -/
def runStream (c : Config) (ws : List Word) : State := runSteps ws.length (supplyWords ws (State.resetWith c))

end Sys2Proof.Machine
end

