-- ==== Sys2Proof/Safety.lean ====
section
/-! DEFINITION. What counts as a safe run, when each fault is due, and the invariants of the block: the terms the statements
are made in. Each is written from the spec's own condition, not from the stage functions. -/

namespace Sys2Proof.Machine

/-- A run is safe as long as no fault is recorded: a faulted state is "gone wrong", never a normal end (60_exceptions.md
R203). -/
abbrev running (s : State) : Prop := s.fault = none

/-- The next step completes when Decode has `i`: it ends in `t` and `t` records no fault. -/
abbrev completesTo (i : Instr) (s t : State) : Prop := exec i s = .next t ∧ running t

/-- UnhandledOpcode is due (R205): the word in Decode has class UNHANDLED and the mode is Fault. -/
def decodeFault (i : Instr) (s : State) : Option FaultCause :=
  match i with
  | .unhandledOpcode op rest =>
    if s.config.unhandledMode = .fault then some (.unhandledOpcode (packOpcode op rest)) else none
  | _ => none

/-- UnhandledFunct is due (R206): Execute takes the register-format branch, the function is neither 0x20 nor 0x22, and the
mode is Fault. -/
def executeFault (s : State) : Option FaultCause :=
  if s.read.de.aluOp = 0b10#2 ∧ s.read.de.aluSrc = false ∧ s.read.de.funct ≠ 0x20#6 ∧ s.read.de.funct ≠ 0x22#6
      ∧ s.config.unhandledMode = .fault
  then some (.unhandledFunct s.read.de.funct) else none

/-- MemOutOfRange is due (R207): a load or a store in Memory-Access with an address of 1024 or more, in both modes. -/
def memoryFault (s : State) : Option FaultCause :=
  if (s.read.em.memRead = true ∨ s.read.em.memWrite = true) ∧ 1024 ≤ s.read.em.aluResult.toNat
  then some (.memOutOfRange s.read.em.aluResult) else none

/-- The instructions in Execute and in Memory-Access raise no fault in the next step. -/
abbrev olderStagesFaultFree (s : State) : Prop := executeFault s = none ∧ memoryFault s = none

/-- The instructions before the one in Decode do no work: they access no memory, write no register, and cannot fault. The
bubbles of 10_state.md R31 and latched no-ops are so. -/
abbrev drained (s : State) : Prop :=
  s.read.de.aluOp = 0 ∧ s.read.de.memRead = false ∧ s.read.de.memWrite = false ∧ s.read.de.regWrite = false ∧
  s.read.em.memRead = false ∧ s.read.em.memWrite = false ∧ s.read.em.regWrite = false ∧ s.read.mw.regWrite = false

/-- The machine runs, has the word `w` to fetch, and nothing before the instruction in Decode faults: what the next step needs
to get past every stage but Decode (40_pipeline.md R128). -/
abbrev ready (s : State) (w : Word) (rest : List Word) : Prop :=
  running s ∧ s.input = w :: rest ∧ olderStagesFaultFree s

/-- The read sides are the write sides as they stood at the end of the step before (10_state.md R25). -/
abbrev readFollowsWrite (s : State) : Prop := s.read = s.write

/-- The control tuple of a DE latch is one of the four rows of 40_pipeline.md R107 (all zero is the NOP row). -/
abbrev legalDE (d : DELatch) : Prop :=
  (d.aluOp, d.aluSrc, d.memRead, d.memToReg, d.memWrite, d.regDst, d.regWrite) ∈
    [(0b00#2, false, false, false, false, false, false), (0b10#2, false, false, false, false, true, true),
     (0b00#2, true, true, true, false, false, true), (0b00#2, true, false, false, true, false, false)]

/-- The four controls of an EM latch are those of one of the four rows; so no latch loads and stores (R121). -/
abbrev legalEM (e : EMLatch) : Prop :=
  (e.memRead, e.memToReg, e.memWrite, e.regWrite) ∈
    [(false, false, false, false), (false, false, false, true), (true, true, false, true), (false, false, true, false)]

/-- The two controls of an MW latch are those of one of the four rows. -/
abbrev legalMW (m : MWLatch) : Prop := (m.memToReg, m.regWrite) ∈ [(false, false), (false, true), (true, true)]

/-- All control signals on both sides are legal. -/
abbrev legalControls (s : State) : Prop :=
  legalDE s.write.de ∧ legalDE s.read.de ∧ legalEM s.write.em ∧ legalEM s.read.em ∧ legalMW s.write.mw ∧ legalMW s.read.mw

/-- From the read sides `first`, each snapshot's read sides are the write sides of the snapshot before it, and the last one's
write sides are `last` (95_test_vectors.md L2-C). -/
def linkedSnapshots (first : LatchSide) (snaps : List Snapshot) (last : LatchSide) : Prop :=
  match snaps with
  | [] => first = last
  | a :: more => a.read = first ∧ linkedSnapshots a.write more last

/-- One snapshot per completed step, linked from the reset zeros to the present read sides. -/
def snapshotsLinked (s : State) : Prop :=
  s.snapshots.length = s.steps ∧ linkedSnapshots .zero s.snapshots s.read

/-- What the kind and info of a fault record say is so (60_exceptions.md R201). -/
def truthfulCause (c : FaultCause) (m : UnhandledMode) : Prop :=
  match c with
  | .unhandledOpcode word =>
    m = .fault ∧ fieldOp word ≠ 0x00#6 ∧ fieldOp word ≠ 0x20#6 ∧ fieldOp word ≠ 0x28#6
  | .unhandledFunct funct => m = .fault ∧ funct ≠ 0x20#6 ∧ funct ≠ 0x22#6
  | .memOutOfRange address => 1024 ≤ address.toNat

/-- A recorded fault has a true cause, the number of the step that did not complete, and the stage of its kind (R201, R203). -/
def truthfulFault (s : State) : Prop :=
  match s.fault with
  | none => True
  | some r => truthfulCause r.cause s.config.unhandledMode ∧ r.step = s.steps + 1 ∧ r.stage = faultStage r.cause

/-- The classes of 30_encoding.md R78. -/
inductive InstrClass where
  | nop
  | rfmt
  | load
  | store
  | unhandled
  deriving DecidableEq, Repr

/-- The class an instruction's row belongs to (R78). -/
def instrClass : Instr → InstrClass
  | .nop => .nop
  | .add _ _ _ _ => .rfmt
  | .sub _ _ _ _ => .rfmt
  | .rfmtUnhandledFunct _ _ _ _ _ => .rfmt
  | .load _ _ _ => .load
  | .store _ _ _ => .store
  | .unhandledOpcode _ _ => .unhandled

/-- The rows of spec/opcode_table.json by priority: priority, mask, match. -/
def tableRows : List (Nat × Word × Word) :=
  [(1, 0xFFFFFFFF#32, 0x00000000#32), (2, 0xFC00003F#32, 0x00000020#32), (3, 0xFC00003F#32, 0x00000022#32),
   (4, 0xFC000000#32, 0x00000000#32), (5, 0xFC000000#32, 0x80000000#32), (6, 0xFC000000#32, 0xA0000000#32),
   (7, 0x00000000#32, 0x00000000#32)]

/-- The first row of the table that a word matches. -/
def firstRow (w : Word) : Option Nat := (tableRows.find? fun r => w &&& r.2.1 == r.2.2).map Prod.fst

/-- The priority of an instruction's own row. -/
def rowOf : Instr → Nat
  | .nop => 1
  | .add _ _ _ _ => 2
  | .sub _ _ _ _ => 3
  | .rfmtUnhandledFunct _ _ _ _ _ => 4
  | .load _ _ _ => 5
  | .store _ _ _ => 6
  | .unhandledOpcode _ _ => 7

/-- The registers an instruction's Decode reads for its two operands (40_pipeline.md R106). A NOP reads `x[0]` for both (the
spec's decision D11); an unhandled opcode latches none (R109). -/
def operandRegs : Instr → Option (RegIdx × RegIdx)
  | .nop => some (0, 0)
  | .add rs rt _ _ => some (rs, rt)
  | .sub rs rt _ _ => some (rs, rt)
  | .rfmtUnhandledFunct rs rt _ _ _ => some (rs, rt)
  | .load rs rt _ => some (rs, rt)
  | .store rs rt _ => some (rs, rt)
  | .unhandledOpcode _ _ => none

/-- The step that decoded `i` and ended in `t` latched for Execute what `x` gives the two operand registers of `i`. -/
def latchesOperands (i : Instr) (x : RegIdx → Word) (t : State) : Prop :=
  ∀ r q, operandRegs i = some (r, q) → t.read.de.readData1 = x r ∧ t.read.de.readData2 = x q

/-- A DE latch with its offset field blanked: what two R-format words that differ only in bits 10–6 agree on (R74). -/
def blankOffset (d : DELatch) : DELatch := { d with seOffset := 0 }

/-- A snapshot with the offset fields of its two DE latches blanked. -/
def blankSnapshot (p : Snapshot) : Snapshot :=
  { p with write.de := blankOffset p.write.de, read.de := blankOffset p.read.de }

/-- Two DE latches are alike to every stage after Decode: equal, or register-format ones that differ in the offset only. -/
abbrev sameUpToIgnored (d e : DELatch) : Prop :=
  d = e ∨ (blankOffset d = blankOffset e ∧ d.aluOp = 0b10#2 ∧ d.aluSrc = false)

/-- Two states that only ignored bits tell apart: the DE latches are alike in the sense above, the snapshots agree with the
offsets blanked, and every other field is equal. -/
def differInIgnoredBits (s s' : State) : Prop :=
  sameUpToIgnored s.write.de s'.write.de ∧ sameUpToIgnored s.read.de s'.read.de ∧
  s.snapshots.map blankSnapshot = s'.snapshots.map blankSnapshot ∧
  s' = { s with write.de := s'.write.de, read.de := s'.read.de, snapshots := s'.snapshots }

end Sys2Proof.Machine
end

