-- ==== Sys2Proof/Certificates/Slice0/Obligations.lean ====
section
/-! DEFINITION. The statements for the provers. Each docstring names the rules of spec/ it formalises. `exec i s` is the step in
which the instruction `i` stands in Decode (log entry 13); the states after it are reached with `Host.Core.run`. -/

open Sys2Proof Sys2Proof.Machine

/-! ## Decoding -/

/-- R105, R103: a step decodes the word fetched in the step before and is that instruction's `exec`, with nothing added (log
entry 13); the word it fetches is the one the next step decodes. The queue `input` is log entry 4. -/
def Obligations.StepRunsDecodedWord : Prop :=
  ∀ s : State,
    step s = exec (decode s.read.fd.instr) s ∧ (decode s.read.fd.instr).wellFormed = true ∧
    ∀ (w : Word) (rest : List Word) (t : State),
      s.input = w :: rest → step s = .next t → running t → t.read.fd.instr = w ∧ t.input = rest

/-- The words of 95_test_vectors.md L2-E, each with the fields that table gives it. -/
def Obligations.SampleWordsDecode : Prop :=
  decode 0x00000000#32 = .nop ∧
  decode 0x00221820#32 = .add 1 2 3 0 ∧
  decode 0x00221822#32 = .sub 1 2 3 0 ∧
  decode 0x002218A0#32 = .add 1 2 3 2 ∧
  decode 0x00221821#32 = .rfmtUnhandledFunct 1 2 3 0 0x21#6 ∧
  decode 0x00221800#32 = .rfmtUnhandledFunct 1 2 3 0 0x00#6 ∧
  decode 0x00000001#32 = .rfmtUnhandledFunct 0 0 0 0 0x01#6 ∧
  decode 0x80010005#32 = .load 0 1 0x0005#16 ∧
  decode 0x8064012D#32 = .load 3 4 0x012D#16 ∧
  decode 0xA002FFFF#32 = .store 0 2 0xFFFF#16 ∧
  decode 0xA0A40010#32 = .store 5 4 0x0010#16 ∧
  decode 0x8C010000#32 = .unhandledOpcode 0x23#6 0x0010000#26 ∧
  decode 0xAC000000#32 = .unhandledOpcode 0x2B#6 0x0000000#26 ∧
  decode 0x84000000#32 = .unhandledOpcode 0x21#6 0x0000000#26 ∧
  decode 0xFFFFFFFF#32 = .unhandledOpcode 0x3F#6 0x3FFFFFF#26

/-- 30_encoding.md R71 to R73, R82: no bit of an encoding is dropped. -/
def Obligations.DecodeEncodeRoundTrip : Prop :=
  ∀ i : Instr, i.wellFormed = true → decode (encode i) = i

/-- R78, R80: every one of the 2^32 words is the word of exactly the well-formed instruction it decodes to. -/
def Obligations.EncodeDecodeRoundTrip : Prop :=
  ∀ w : Word, (decode w).wellFormed = true ∧ encode (decode w) = w

/-- R78: the class test, in its order. -/
def Obligations.DecodeFollowsClassTest : Prop :=
  ∀ w : Word, instrClass (decode w) =
    if w = 0x00000000#32 then .nop
    else if w.extractLsb' 26 6 = 0x00#6 then .rfmt
    else if w.extractLsb' 26 6 = 0x20#6 then .load
    else if w.extractLsb' 26 6 = 0x28#6 then .store
    else .unhandled

/-- R71 to R73, R79: every operand is the field of the word the table names, here as arithmetic on the word's number; the
function, which ADD and SUB have in their names, is bits 5–0 for all three register-format rows. -/
def Obligations.OperandsAreTheWordsFields : Prop :=
  ∀ w : Word,
    (∀ (rs rt rd : RegIdx) (x : BitVec 5) (f : Code6),
      (decode w = .add rs rt rd x ∧ f = 0x20#6) ∨ (decode w = .sub rs rt rd x ∧ f = 0x22#6) ∨
        decode w = .rfmtUnhandledFunct rs rt rd x f →
      rs.toNat = w.toNat / 2 ^ 21 % 32 ∧ rt.toNat = w.toNat / 2 ^ 16 % 32 ∧ rd.toNat = w.toNat / 2 ^ 11 % 32 ∧
      x.toNat = w.toNat / 2 ^ 6 % 32 ∧ f.toNat = w.toNat % 64 ∧ w.toNat / 2 ^ 26 = 0) ∧
    (∀ rs rt imm, decode w = .load rs rt imm → w.toNat / 2 ^ 26 = 0x20) ∧
    (∀ rs rt imm, decode w = .store rs rt imm → w.toNat / 2 ^ 26 = 0x28) ∧
    (∀ rs rt imm, decode w = .load rs rt imm ∨ decode w = .store rs rt imm →
      rs.toNat = w.toNat / 2 ^ 21 % 32 ∧ rt.toNat = w.toNat / 2 ^ 16 % 32 ∧ imm.toNat = w.toNat % 65536) ∧
    (∀ op rest, decode w = .unhandledOpcode op rest →
      op.toNat = w.toNat / 2 ^ 26 ∧ rest.toNat = w.toNat % 2 ^ 26)

/-- opcode_table.json: the row of the instruction decoded is the first row, by priority, whose mask and match fit the word. -/
def Obligations.DecoderTakesFirstMatchingRow : Prop :=
  ∀ w : Word, firstRow w = some (rowOf (decode w))

/-- R75: sign extension by the source's procedure, and its two test values. -/
def Obligations.OffsetIsSignExtended : Prop :=
  (∀ v : Half, sext32 v = if v.getLsbD 15 = true then v.zeroExtend 32 + 0xFFFF0000#32 else v.zeroExtend 32) ∧
  sext32 0x8000#16 = 0xFFFF8000#32 ∧ sext32 0x0001#16 = 0x00000001#32

/-! ## Reset -/

/-- R40: `x[0]` is 0; the others hold the configuration's seeds, which are non-zero and distinct for every admissible
configuration; a reset gives the same values again. `State.reset` takes the seeds of log entry 1 (DESIGN CHOICE: seed i is i),
which are admissible. -/
def Obligations.ResetSeedsRegisters : Prop :=
  (∀ c : Config, c.admissible →
    regGet (State.resetWith c).regs 0 = 0 ∧
    (∀ r : RegIdx, r ≠ 0 → regGet (State.resetWith c).regs r = c.regSeed[r.toNat]'r.isLt) ∧
    (∀ r : RegIdx, r ≠ 0 → regGet (State.resetWith c).regs r ≠ 0) ∧
    (∀ r q : RegIdx, r ≠ 0 → q ≠ 0 → r ≠ q →
      regGet (State.resetWith c).regs r ≠ regGet (State.resetWith c).regs q)) ∧
  (∀ s : State, hostReset (hostReset s) = hostReset s ∧ (hostReset s).regs = (State.resetWith s.config).regs) ∧
  Config.default.admissible ∧ State.reset = State.resetWith Config.default

/-- R41: memory word `i` holds `i mod 256`. -/
def Obligations.ResetFillsMemory : Prop :=
  ∀ (c : Config) (i : Nat), i < 1024 →
    memGet (State.resetWith c).mem i = BitVec.zeroExtend 32 (BitVec.ofNat 10 (i % 256)) ∧
    memGet State.reset.mem 300 = 44#32

/-- R42, R43 (the spec's decisions D7 and D5): every latch field of both sides is 0, no step is done, no fault is recorded; and
the model's own `input` and `snapshots` are empty (log entries 4 and 5). -/
def Obligations.ResetClearsLatches : Prop :=
  ∀ (c : Config) (l : LatchSide), l = (State.resetWith c).write ∨ l = (State.resetWith c).read →
    l = { fd := { instr := 0 }
          de := { aluSrc := false, memRead := false, memToReg := false, memWrite := false, regDst := false,
                  regWrite := false, aluOp := 0, seOffset := 0, funct := 0, writeRegR := 0, writeRegI := 0,
                  readData1 := 0, readData2 := 0 }
          em := { memRead := false, memToReg := false, memWrite := false, regWrite := false, aluResult := 0, swValue := 0,
                  writeRegNum := 0 }
          mw := { memToReg := false, regWrite := false, lwData := 0, aluResult := 0, writeRegNum := 0 } } ∧
    (State.resetWith c).steps = 0 ∧ (State.resetWith c).fault = none ∧
    (State.resetWith c).input = [] ∧ (State.resetWith c).snapshots = []

/-- The five invariants below hold after reset, whatever the configuration. That the latches are zero then is the spec's
decision D7 (log entry 8), that no snapshot is listed is log entry 5, and the canonical form of memory is log entry 2. -/
def Obligations.ResetMeetsInvariants : Prop :=
  ∀ c : Config, Memory.wf (State.resetWith c).mem ∧ readFollowsWrite (State.resetWith c) ∧
    legalControls (State.resetWith c) ∧ snapshotsLinked (State.resetWith c) ∧ truthfulFault (State.resetWith c)

/-! ## Where there is a step -/

/-- R101 (the spec's decision D5): from a faulted state no step exists. -/
def Obligations.FaultedStateHasNoStep : Prop :=
  ∀ (i : Instr) (s : State) (r : FaultRecord), s.fault = some r →
    exec i s = .fault (.halted r) ∧ step s = .fault (.halted r)

/-- R132: without a word the run is over. That the model answers it with this refusal is its own choice (log entry 11). -/
def Obligations.ExhaustedStreamHasNoStep : Prop :=
  ∀ (i : Instr) (s : State), running s → s.input = [] →
    exec i s = .refused .streamExhausted ∧ step s = .refused .streamExhausted

/-- R128: the step is total on running states and on every word, whatever instruction stands in Decode. A raised fault is a
next state here (log entry 6; the spec's decision D5), and the step's word is consumed even then (log entry 12). -/
def Obligations.RunningStateWithWordHasStep : Prop :=
  ∀ (i : Instr) (s : State) (w : Word) (rest : List Word), running s → s.input = w :: rest →
    ∃ t, exec i s = .next t ∧ t.input = rest

/-! ## The stages, whatever instruction stands in Decode -/

/-- R104: Fetch succeeds for every word, latches it, and has no other effect: another word changes nothing but the latched
word (and what the snapshot shows of it), nor whether the step faults. That a faulting step drops the latched word is the spec's
decision D5 (log entry 6), and that its word is consumed is log entry 12. -/
def Obligations.FetchLatchesEveryWord : Prop :=
  ∀ (i : Instr) (s t : State) (w w' : Word) (rest : List Word), exec i { s with input := w :: rest } = .next t →
    ∃ t', exec i { s with input := w' :: rest } = .next t' ∧
      (running t → t.write.fd.instr = w ∧ t'.write.fd.instr = w' ∧
        t' = { t with write.fd.instr := w', read.fd.instr := w', snapshots := t'.snapshots }) ∧
      (¬ running t → t' = t)

/-- R111 and R116: Execute copies four controls and the second operand unchanged. -/
def Obligations.ExecuteCopiesControls : Prop :=
  ∀ (i : Instr) (s t : State), completesTo i s t →
    t.read.em.memRead = s.read.de.memRead ∧ t.read.em.memToReg = s.read.de.memToReg ∧
    t.read.em.memWrite = s.read.de.memWrite ∧ t.read.em.regWrite = s.read.de.regWrite ∧
    t.read.em.swValue = s.read.de.readData2

/-- R112, R113, R163: the register-format branch adds or subtracts modulo 2^32, the same bits whether the operands are read as
unsigned or as signed, into the register the R-format field names. The branch test's marker is the spec's decision D9. -/
def Obligations.RegisterFormatResult : Prop :=
  ∀ (i : Instr) (s t : State), completesTo i s t → s.read.de.aluOp = 0b10#2 → s.read.de.aluSrc = false →
    t.read.em.writeRegNum = s.read.de.writeRegR ∧
    (s.read.de.funct = 0x20#6 →
      t.read.em.aluResult.toNat = (s.read.de.readData1.toNat + s.read.de.readData2.toNat) % 2 ^ 32 ∧
      t.read.em.aluResult = BitVec.ofInt 32 (s.read.de.readData1.toInt + s.read.de.readData2.toInt)) ∧
    (s.read.de.funct = 0x22#6 →
      t.read.em.aluResult.toNat = (s.read.de.readData1.toNat + (2 ^ 32 - s.read.de.readData2.toNat)) % 2 ^ 32 ∧
      t.read.em.aluResult = BitVec.ofInt 32 (s.read.de.readData1.toInt - s.read.de.readData2.toInt))

/-- R206, R113 (the spec's decision D2): in Retain mode an unhandled function leaves the ALU result of the write side as it was
and writes the destination as always; in Fault mode the step does not complete. The branch test's marker is the spec's decision
D9. -/
def Obligations.UnhandledFunctKeepsStaleResult : Prop :=
  ∀ (i : Instr) (s t : State), completesTo i s t → s.read.de.aluOp = 0b10#2 → s.read.de.aluSrc = false →
    s.read.de.funct ≠ 0x20#6 → s.read.de.funct ≠ 0x22#6 →
    s.config.unhandledMode = .retain ∧ t.read.em.aluResult = s.write.em.aluResult ∧
    t.read.em.writeRegNum = s.read.de.writeRegR

/-- R114: the immediate branch adds the offset to the base and takes the I-format destination; it never faults, and an address
out of range is seen by Memory-Access alone, and only for a load or a store. When the branch is taken rests on the spec's
decisions D9 and D12 (log entry 9). -/
def Obligations.ImmediateBranchAddsOffset : Prop :=
  ∀ (i : Instr) (s t : State), exec i s = .next t → ¬ (s.read.de.aluOp = 0b10#2 ∧ s.read.de.aluSrc = false) →
    (running t → t.read.em.writeRegNum = s.read.de.writeRegI ∧
      t.read.em.aluResult = s.read.de.readData1 + s.read.de.seOffset) ∧
    (∀ r, t.fault = some r → r.stage ≠ .execute ∧
      ∀ a, r.cause = .memOutOfRange a →
        r.stage = .memoryAccess ∧ (s.read.em.memRead = true ∨ s.read.em.memWrite = true))

/-- R118, R121, R56: a load reads the whole word at its address, in range, and changes no memory; loading goes before storing.
That a load out of range does not complete is the spec's decision D4 (log entry 6). What `lwData` holds where nothing is loaded
is not stated here (log entry 7). -/
def Obligations.LoadReadsWholeWord : Prop :=
  ∀ (i : Instr) (s t : State), completesTo i s t → s.read.em.memRead = true →
    s.read.em.aluResult.toNat < 1024 ∧ t.read.mw.lwData = memGet s.mem s.read.em.aluResult.toNat ∧ t.mem = s.mem

/-- R57: a store changes exactly the one word it addresses; a step that does not store changes no word. The canonical form is
an invariant (MemoryStaysCanonical). -/
def Obligations.StoreChangesOneWord : Prop :=
  ∀ (i : Instr) (s t : State), completesTo i s t → Memory.wf s.mem →
    (s.read.em.memRead = false → s.read.em.memWrite = true →
      memGet t.mem s.read.em.aluResult.toNat = s.read.em.swValue ∧
      ∀ a, a ≠ s.read.em.aluResult.toNat → memGet t.mem a = memGet s.mem a) ∧
    (s.read.em.memRead = true ∨ s.read.em.memWrite = false → t.mem = s.mem)

/-- R119: two controls, the destination index and the ALU result pass through Memory-Access, in all three cases. -/
def Obligations.MemoryAccessPassesThrough : Prop :=
  ∀ (i : Instr) (s t : State), completesTo i s t →
    t.read.mw.memToReg = s.read.em.memToReg ∧ t.read.mw.regWrite = s.read.em.regWrite ∧
    t.read.mw.writeRegNum = s.read.em.writeRegNum ∧ t.read.mw.aluResult = s.read.em.aluResult

/-- R122: the write-back multiplexer: no effect without regWrite, else the loaded value or the ALU result into the latched
destination, any index from 0 to 31, and no other register; it never faults: a step that completes would
complete with any other contents of Write-Back's latch too. -/
def Obligations.WriteBackMultiplexer : Prop :=
  ∀ (i : Instr) (s t : State), completesTo i s t →
    (s.read.mw.regWrite = false → t.regs = s.regs) ∧
    (s.read.mw.regWrite = true →
      regGet t.regs s.read.mw.writeRegNum =
        (if s.read.mw.memToReg = true then s.read.mw.lwData else s.read.mw.aluResult) ∧
      ∀ q, q ≠ s.read.mw.writeRegNum → regGet t.regs q = regGet s.regs q) ∧
    ∀ m : MWLatch, ∃ u, completesTo i { s with read.mw := m } u

/-- R21: register 0 is 0 at reset and not protected after: a write-back to it succeeds, any other step leaves it, and a Decode
that reads it, as either operand, gets its last value. That a NOP reads it for both operands is the spec's decision D11. -/
def Obligations.RegisterZeroIsUnprotected : Prop :=
  (∀ c : Config, regGet (State.resetWith c).regs 0 = 0) ∧
  (∀ (i : Instr) (s t : State), completesTo i s t →
    regGet t.regs 0 =
      if s.read.mw.regWrite = true ∧ s.read.mw.writeRegNum = 0 then
        (if s.read.mw.memToReg = true then s.read.mw.lwData else s.read.mw.aluResult)
      else regGet s.regs 0) ∧
  (∀ (r rd : RegIdx) (x : BitVec 5) (f : Code6) (imm : Half) (i : Instr) (s t : State), completesTo i s t →
    (i ∈ [.nop, .add 0 r rd x, .sub 0 r rd x, .rfmtUnhandledFunct 0 r rd x f, .load 0 r imm, .store 0 r imm] →
      t.read.de.readData1 = regGet s.regs 0) ∧
    (i ∈ [.nop, .add r 0 rd x, .sub r 0 rd x, .rfmtUnhandledFunct r 0 rd x f, .load r 0 imm, .store r 0 imm] →
      t.read.de.readData2 = regGet s.regs 0))

/-- R125: Commit copies all four write sides, as the stages left them, into the read sides, and leaves the write sides. -/
def Obligations.CommitCopiesWriteSides : Prop :=
  ∀ (i : Instr) (s t : State), completesTo i s t →
    ∃ p : Snapshot, t.snapshots = s.snapshots ++ [p] ∧
      t.read.fd = p.write.fd ∧ t.read.de = p.write.de ∧ t.read.em = p.write.em ∧ t.read.mw = p.write.mw ∧
      t.write = p.write

/-- R133: a completed step's snapshot shows both sides of the latches before Commit and the registers after Write-Back. -/
def Obligations.SnapshotShowsTheStep : Prop :=
  ∀ (i : Instr) (s t : State), completesTo i s t →
    t.snapshots = s.snapshots ++ [{ write := t.write, read := s.read, regs := t.regs }]

/-! ## Faults -/

/-- R124, R203 (the spec's decision D5): a step that faults leaves the state before it, with the record set: the step's number
is one more than the completed steps. That its word is consumed is log entry 12. -/
def Obligations.FaultKeepsPreStepState : Prop :=
  ∀ (i : Instr) (s t : State) (r : FaultRecord), exec i s = .next t → t.fault = some r →
    running s ∧ t = { s with input := s.input.tail, fault := some r } ∧ r.step = s.steps + 1 ∧ r.stage = faultStage r.cause

/-- R204 (the spec's decision D6), R201: the fault recorded is the first due in the order Decode, Execute, Memory-Access; where
none is due the step completes and counts (R127). A raised fault is a next state (log entry 6; the spec's decision D5). -/
def Obligations.FirstFaultInStageOrder : Prop :=
  ∀ (i : Instr) (s : State) (w : Word) (rest : List Word), running s → s.input = w :: rest →
    ∃ t, exec i s = .next t ∧
      match decodeFault i s, executeFault s, memoryFault s with
      | some c, _, _ => t.fault = some { cause := c, step := s.steps + 1, stage := .decode } ∧ t.steps = s.steps
      | none, some c, _ => t.fault = some { cause := c, step := s.steps + 1, stage := .execute } ∧ t.steps = s.steps
      | none, none, some c => t.fault = some { cause := c, step := s.steps + 1, stage := .memoryAccess } ∧ t.steps = s.steps
      | none, none, none => running t ∧ t.steps = s.steps + 1

/-- R207, R53 (the spec's decisions D4 and D13): in both modes a load or store of an address of 1024 or more, which includes
every address negative in two's complement, is a MemOutOfRange that touches nothing. The rest of the state stays by the spec's
decision D5 (log entry 6), and the step's word is consumed (log entry 12). -/
def Obligations.OutOfRangeAccessFaults : Prop :=
  ∀ (i : Instr) (s : State) (w : Word) (rest : List Word), running s → s.input = w :: rest →
    decodeFault i s = none → executeFault s = none → s.read.em.memRead = true ∨ s.read.em.memWrite = true →
    (1024 ≤ s.read.em.aluResult.toNat ∨ s.read.em.aluResult.toInt < 0 →
      exec i s = .next { s with
        input := rest
        fault := some { cause := .memOutOfRange s.read.em.aluResult, step := s.steps + 1, stage := .memoryAccess } }) ∧
    (s.read.em.aluResult.toNat < 1024 → ∃ t, completesTo i s t)

/-! ## Each instruction in Decode: the step completes and DE holds what the spec gives the instruction -/

/-- R150, R106, R107: NOP latches no control and no field, and reads `x[0]` twice (the spec's decision D11). -/
def Obligations.NopCompletes : Prop :=
  ∀ (s : State) (w : Word) (rest : List Word), ready s w rest →
    ∃ t, completesTo .nop s t ∧ t.steps = s.steps + 1 ∧ t.write.de = t.read.de ∧
      t.read.de =
        { aluSrc := false, memRead := false, memToReg := false, memWrite := false, regDst := false, regWrite := false,
          aluOp := 0b00#2, seOffset := 0, funct := 0, writeRegR := 0, writeRegI := 0,
          readData1 := regGet s.regs 0, readData2 := regGet s.regs 0 }

/-- R160, R161, R106, R107: ADD and SUB latch the RFMT row, their function, both operands as they stand before this step's
Write-Back, and both destination fields. The marker 0b10 of the row is the spec's decision D9. -/
def Obligations.AddSubComplete : Prop :=
  ∀ (s : State) (w : Word) (rest : List Word) (rs rt rd : RegIdx) (x : BitVec 5), ready s w rest →
    (∃ t, completesTo (.add rs rt rd x) s t ∧ t.steps = s.steps + 1 ∧ t.write.de = t.read.de ∧
      t.read.de =
        { aluSrc := false, memRead := false, memToReg := false, memWrite := false, regDst := true, regWrite := true,
          aluOp := 0b10#2, seOffset := BitVec.signExtend 32 (rd ++ x ++ 0x20#6), funct := 0x20#6, writeRegR := rd,
          writeRegI := rt, readData1 := regGet s.regs rs, readData2 := regGet s.regs rt }) ∧
    (∃ t, completesTo (.sub rs rt rd x) s t ∧ t.steps = s.steps + 1 ∧ t.write.de = t.read.de ∧
      t.read.de =
        { aluSrc := false, memRead := false, memToReg := false, memWrite := false, regDst := true, regWrite := true,
          aluOp := 0b10#2, seOffset := BitVec.signExtend 32 (rd ++ x ++ 0x22#6), funct := 0x22#6, writeRegR := rd,
          writeRegI := rt, readData1 := regGet s.regs rs, readData2 := regGet s.regs rt })

/-- R180, R106, R107: LOAD latches its row, the base, and the fields Decode takes from its offset bits (R76). -/
def Obligations.LoadCompletes : Prop :=
  ∀ (s : State) (w : Word) (rest : List Word) (rs rt : RegIdx) (imm : Half), ready s w rest →
    ∃ t, completesTo (.load rs rt imm) s t ∧ t.steps = s.steps + 1 ∧ t.write.de = t.read.de ∧
      t.read.de =
        { aluSrc := true, memRead := true, memToReg := true, memWrite := false, regDst := false, regWrite := true,
          aluOp := 0b00#2, seOffset := imm.signExtend 32, funct := imm.extractLsb' 0 6, writeRegR := imm.extractLsb' 11 5,
          writeRegI := rt, readData1 := regGet s.regs rs, readData2 := regGet s.regs rt }

/-- R182, R106 to R108: STORE latches its row with the two don't-cares false, the base and the store value. -/
def Obligations.StoreCompletes : Prop :=
  ∀ (s : State) (w : Word) (rest : List Word) (rs rt : RegIdx) (imm : Half), ready s w rest →
    ∃ t, completesTo (.store rs rt imm) s t ∧ t.steps = s.steps + 1 ∧ t.write.de = t.read.de ∧
      t.read.de =
        { aluSrc := true, memRead := false, memToReg := false, memWrite := true, regDst := false, regWrite := false,
          aluOp := 0b00#2, seOffset := imm.signExtend 32, funct := imm.extractLsb' 0 6, writeRegR := imm.extractLsb' 11 5,
          writeRegI := rt, readData1 := regGet s.regs rs, readData2 := regGet s.regs rt }

/-- R162: Decode treats a register-format word with an unhandled function as RFMT and does not fault on it, in both modes. The
marker 0b10 of the row is the spec's decision D9. -/
def Obligations.UnhandledFunctDecodesAsRfmt : Prop :=
  ∀ (s : State) (w : Word) (rest : List Word) (rs rt rd : RegIdx) (x : BitVec 5) (f : Code6), ready s w rest →
    ∃ t, completesTo (.rfmtUnhandledFunct rs rt rd x f) s t ∧ t.steps = s.steps + 1 ∧ t.write.de = t.read.de ∧
      t.read.de =
        { aluSrc := false, memRead := false, memToReg := false, memWrite := false, regDst := true, regWrite := true,
          aluOp := 0b10#2, seOffset := BitVec.signExtend 32 (rd ++ x ++ f), funct := f, writeRegR := rd,
          writeRegI := rt, readData1 := regGet s.regs rs, readData2 := regGet s.regs rt }

/-- R205, R201 (the spec's decision D1), Fault mode: an unhandled opcode in Decode raises UnhandledOpcode with its word,
whatever the older instructions do. The state is otherwise the one before the step (the spec's decision D5, log entry 6), except
that the word supplied for the step is consumed (log entry 12). -/
def Obligations.UnhandledOpcodeFaultsInDecode : Prop :=
  ∀ (s : State) (w : Word) (rest : List Word) (op : Code6) (r : BitVec 26), running s → s.input = w :: rest →
    s.config.unhandledMode = .fault →
    exec (.unhandledOpcode op r) s = .next { s with
      input := rest
      fault := some { cause := .unhandledOpcode (op ++ r), step := s.steps + 1, stage := .decode } }

/-- R205 (the spec's decision D3), Retain mode: an unhandled opcode writes no field of DE, so Execute gets the previous decode
again, where the read side followed the write side (an invariant). -/
def Obligations.UnhandledOpcodeRetainsDecode : Prop :=
  ∀ (s : State) (w : Word) (rest : List Word) (op : Code6) (r : BitVec 26), ready s w rest →
    s.config.unhandledMode = .retain →
    ∃ t, completesTo (.unhandledOpcode op r) s t ∧ t.steps = s.steps + 1 ∧ t.write.de = s.write.de ∧
      t.read.de = s.write.de ∧ (readFollowsWrite s → t.read.de = s.read.de)

/-! ## Each instruction from Decode to Write-Back, alone in the pipeline: what it changes, and nothing else -/

/-- R150: a NOP changes no register and no memory word, whatever `x[0]` holds. Here and in the next three statements the words
after it are no-ops, which take the immediate branch of Execute by the spec's decision D12 (log entry 9). -/
def Obligations.NopChangesNothing : Prop :=
  ∀ (s : State) (w : Word) (rest : List Word), running s → drained s → s.input = 0 :: 0 :: 0 :: w :: rest →
    ∃ t1 t, completesTo .nop s t1 ∧ Host.Core.run core 3 t1 = .next t ∧ running t ∧
      t.regs = s.regs ∧ t.mem = s.mem ∧ t.config = s.config ∧ t.steps = s.steps + 4 ∧ t.input = rest

/-- R160, R161: alone in the pipeline, ADD and SUB change the register rd and no other, and no memory word. The no-ops
after them take the immediate branch by the spec's decision D12. -/
def Obligations.AddSubChangeOnlyDestination : Prop :=
  ∀ (s : State) (w : Word) (rest : List Word) (rs rt rd : RegIdx) (x : BitVec 5), running s → drained s →
    s.input = 0 :: 0 :: 0 :: w :: rest →
    (∃ t1 t, completesTo (.add rs rt rd x) s t1 ∧ Host.Core.run core 3 t1 = .next t ∧ running t ∧
      regGet t.regs rd = regGet s.regs rs + regGet s.regs rt ∧ (∀ q, q ≠ rd → regGet t.regs q = regGet s.regs q) ∧
      t.mem = s.mem ∧ t.config = s.config ∧ t.steps = s.steps + 4 ∧ t.input = rest) ∧
    (∃ t1 t, completesTo (.sub rs rt rd x) s t1 ∧ Host.Core.run core 3 t1 = .next t ∧ running t ∧
      regGet t.regs rd = regGet s.regs rs - regGet s.regs rt ∧ (∀ q, q ≠ rd → regGet t.regs q = regGet s.regs q) ∧
      t.mem = s.mem ∧ t.config = s.config ∧ t.steps = s.steps + 4 ∧ t.input = rest)

/-- R180, R181, R183: alone in the pipeline, a LOAD in range changes the register rt and no other, its base included where rt is
another register, and no memory word. The no-ops after it take the immediate branch by the spec's decision D12. -/
def Obligations.LoadChangesOnlyDestination : Prop :=
  ∀ (s : State) (w : Word) (rest : List Word) (rs rt : RegIdx) (imm : Half), running s → drained s →
    s.input = 0 :: 0 :: 0 :: w :: rest → (regGet s.regs rs + imm.signExtend 32).toNat < 1024 →
    ∃ t1 t, completesTo (.load rs rt imm) s t1 ∧ Host.Core.run core 3 t1 = .next t ∧ running t ∧
      regGet t.regs rt = memGet s.mem (regGet s.regs rs + imm.signExtend 32).toNat ∧
      (∀ q, q ≠ rt → regGet t.regs q = regGet s.regs q) ∧
      t.mem = s.mem ∧ t.config = s.config ∧ t.steps = s.steps + 4 ∧ t.input = rest

/-- R182, R183: alone in the pipeline, a STORE in range changes the memory word at its address and no other, and no register.
The no-ops after it take the immediate branch by the spec's decision D12. The canonical form (log entry 2) is an invariant
(MemoryStaysCanonical). -/
def Obligations.StoreChangesOnlyItsWord : Prop :=
  ∀ (s : State) (w : Word) (rest : List Word) (rs rt : RegIdx) (imm : Half), running s → drained s → Memory.wf s.mem →
    s.input = 0 :: 0 :: 0 :: w :: rest → (regGet s.regs rs + imm.signExtend 32).toNat < 1024 →
    ∃ t1 t, completesTo (.store rs rt imm) s t1 ∧ Host.Core.run core 3 t1 = .next t ∧ running t ∧
      memGet t.mem (regGet s.regs rs + imm.signExtend 32).toNat = regGet s.regs rt ∧
      (∀ a, a ≠ (regGet s.regs rs + imm.signExtend 32).toNat → memGet t.mem a = memGet s.mem a) ∧
      t.regs = s.regs ∧ t.config = s.config ∧ t.steps = s.steps + 4 ∧ t.input = rest

/-- R180, R182, R207 (the spec's decision D4): a LOAD or STORE out of range decodes and executes, and faults in Memory-Access,
two steps after its Decode, with registers and memory untouched (the spec's decision D5, log entry 6). -/
def Obligations.OutOfRangeInstructionFaults : Prop :=
  ∀ (s : State) (w : Word) (rest : List Word) (rs rt : RegIdx) (imm : Half) (i : Instr), running s → drained s →
    s.input = 0 :: 0 :: w :: rest → 1024 ≤ (regGet s.regs rs + imm.signExtend 32).toNat →
    i = .load rs rt imm ∨ i = .store rs rt imm →
    ∃ t1 t2 t, completesTo i s t1 ∧ step t1 = .next t2 ∧ running t2 ∧ step t2 = .next t ∧
      t.fault = some { cause := .memOutOfRange (regGet s.regs rs + imm.signExtend 32), step := s.steps + 3,
                       stage := .memoryAccess } ∧
      t.regs = s.regs ∧ t.mem = s.mem ∧ t.steps = s.steps + 2

/-- R162, R206 (the spec's decision D2), Fault mode: the step after its Decode, an unhandled function raises UnhandledFunct at
Execute, unless the next word faults at Decode first (the spec's decision D6). The rest of the state stays by the spec's
decision D5 (log entry 6), and the step's word is consumed (log entry 12). -/
def Obligations.UnhandledFunctFaultsInExecute : Prop :=
  ∀ (s t1 : State) (w : Word) (rest : List Word) (rs rt rd : RegIdx) (x : BitVec 5) (f : Code6),
    s.config.unhandledMode = .fault → f ≠ 0x20#6 → f ≠ 0x22#6 →
    completesTo (.rfmtUnhandledFunct rs rt rd x f) s t1 → t1.input = w :: rest →
    decodeFault (decode t1.read.fd.instr) t1 = none →
    step t1 = .next { t1 with
      input := rest
      fault := some { cause := .unhandledFunct f, step := t1.steps + 1, stage := .execute } }

/-- R162, R206 (the spec's decision D2), Retain mode: an unhandled function writes back, three steps after its Decode, the ALU
result that was on the write side at the end of its Decode step. -/
def Obligations.StaleResultIsWrittenBack : Prop :=
  ∀ (s t1 t : State) (rs rt rd : RegIdx) (x : BitVec 5) (f : Code6),
    s.config.unhandledMode = .retain → f ≠ 0x20#6 → f ≠ 0x22#6 →
    completesTo (.rfmtUnhandledFunct rs rt rd x f) s t1 → Host.Core.run core 3 t1 = .next t → running t →
    regGet t.regs rd = t1.write.em.aluResult

/-! ## Instructions among others -/

/-- R160, R161, R240: whatever else is in flight and whatever words follow, a run that completes three steps after ADD's or
SUB's Decode leaves the sum or difference of the operands as Decode read them in rd. -/
def Obligations.AluResultAmongOthers : Prop :=
  ∀ (s t1 t : State) (rs rt rd : RegIdx) (x : BitVec 5), Host.Core.run core 3 t1 = .next t → running t →
    (completesTo (.add rs rt rd x) s t1 → regGet t.regs rd = regGet s.regs rs + regGet s.regs rt) ∧
    (completesTo (.sub rs rt rd x) s t1 → regGet t.regs rd = regGet s.regs rs - regGet s.regs rt)

/-- R180, R60: whatever else is in flight, a LOAD's register gets the word that stands at its address when its Memory-Access
begins, two steps after its Decode began. That the address is then in range is the spec's decision D4 (log entry 6). -/
def Obligations.LoadResultAmongOthers : Prop :=
  ∀ (s t1 t2 t : State) (rs rt : RegIdx) (imm : Half), completesTo (.load rs rt imm) s t1 → step t1 = .next t2 →
    running t2 → Host.Core.run core 2 t2 = .next t → running t →
    (regGet s.regs rs + imm.signExtend 32).toNat < 1024 ∧
    regGet t.regs rt = memGet t2.mem (regGet s.regs rs + imm.signExtend 32).toNat

/-- R182, R60, R57: whatever else is in flight, a STORE's Memory-Access puts the value Decode read at its address and changes no
other word. That the address is then in range is the spec's decision D4 (log entry 6). The canonical form (log entry 2) is an
invariant (MemoryStaysCanonical). -/
def Obligations.StoreEffectAmongOthers : Prop :=
  ∀ (s t1 t2 t : State) (rs rt : RegIdx) (imm : Half), Memory.wf s.mem → completesTo (.store rs rt imm) s t1 →
    step t1 = .next t2 → running t2 → step t2 = .next t → running t →
    (regGet s.regs rs + imm.signExtend 32).toNat < 1024 ∧
    memGet t.mem (regGet s.regs rs + imm.signExtend 32).toNat = regGet s.regs rt ∧
    ∀ a, a ≠ (regGet s.regs rs + imm.signExtend 32).toNat → memGet t.mem a = memGet t2.mem a

/-- R240: where an ADD, a SUB or a LOAD with destination `r` and result `v` is followed by any words, the words one, two and
three places after it latch the registers as they stand before their own step's Write-Back, and the word four places after
latches `v` for `r`. Where nothing older than the producer is in flight (`drained`), the first three latch the registers that
the producer itself read, so without its result. A NOP among the words reads `x[0]` (the spec's decision D11). -/
def Obligations.HazardDistanceIsFour : Prop :=
  ∀ (s t1 t2 t3 t4 t5 : State) (i j1 j2 j3 j4 : Instr) (r : RegIdx) (v : Word),
    (∃ rs rt x, (i = .add rs rt r x ∧ v = regGet s.regs rs + regGet s.regs rt) ∨
      (i = .sub rs rt r x ∧ v = regGet s.regs rs - regGet s.regs rt)) ∨
    (∃ rs imm, i = .load rs r imm ∧ v = memGet t2.mem (regGet s.regs rs + imm.signExtend 32).toNat) →
    completesTo i s t1 → completesTo j1 t1 t2 → completesTo j2 t2 t3 → completesTo j3 t3 t4 → completesTo j4 t4 t5 →
    latchesOperands j1 (regGet t1.regs) t2 ∧ latchesOperands j2 (regGet t2.regs) t3 ∧
    latchesOperands j3 (regGet t3.regs) t4 ∧
    latchesOperands j4 (fun q => if q = r then v else regGet t3.regs q) t5 ∧
    (drained s →
      latchesOperands j1 (regGet s.regs) t2 ∧ latchesOperands j2 (regGet s.regs) t3 ∧
      latchesOperands j3 (regGet s.regs) t4 ∧
      latchesOperands j4 (fun q => if q = r then v else regGet s.regs q) t5)

/-- R242, R60: a load that reaches Memory-Access in the very next step sees the store. -/
def Obligations.LoadSeesStoreJustBefore : Prop :=
  ∀ (s t u : State) (i j : Instr), Memory.wf s.mem → completesTo i s t → completesTo j t u →
    s.read.em.memRead = false → s.read.em.memWrite = true → t.read.em.memRead = true →
    t.read.em.aluResult = s.read.em.aluResult → u.read.mw.lwData = s.read.em.swValue

/-- R74 (the spec's decision D20): bits 10–6 of an R-format word reach the DE offset and the snapshots' view of it, and from
there no other field of any later state. -/
def Obligations.IgnoredBitsReachOnlyTheOffset : Prop :=
  (∀ (s t : State) (rs rt rd : RegIdx) (x x' : BitVec 5) (f : Code6),
    (exec (.add rs rt rd x) s = .next t → ∃ t', exec (.add rs rt rd x') s = .next t' ∧ differInIgnoredBits t t') ∧
    (exec (.sub rs rt rd x) s = .next t → ∃ t', exec (.sub rs rt rd x') s = .next t' ∧ differInIgnoredBits t t') ∧
    (exec (.rfmtUnhandledFunct rs rt rd x f) s = .next t →
      ∃ t', exec (.rfmtUnhandledFunct rs rt rd x' f) s = .next t' ∧ differInIgnoredBits t t')) ∧
  (∀ (s s' t : State) (i : Instr), differInIgnoredBits s s' → exec i s = .next t →
    ∃ t', exec i s' = .next t' ∧ differInIgnoredBits t t') ∧
  (∀ s s' : State, differInIgnoredBits s s' → s.regs = s'.regs ∧ s.mem = s'.mem ∧ s.fault = s'.fault)

/-- R205 (the spec's decision D3), R244 (the spec's derivation), Retain mode: three steps after its Decode, an unhandled opcode
has left exactly what a NOP in its place leaves, snapshots apart, where the word after it is neither an unhandled function nor
itself an unhandled opcode. The two premises on `s` are invariants. -/
def Obligations.RetainedOpcodeActsAsNop : Prop :=
  ∀ (s u1 u : State) (op : Code6) (r : BitVec 26), s.config.unhandledMode = .retain → readFollowsWrite s →
    Memory.wf s.mem → completesTo .nop s u1 →
    rowOf (decode u1.read.fd.instr) ≠ 4 → rowOf (decode u1.read.fd.instr) ≠ 7 →
    Host.Core.run core 3 u1 = .next u → running u →
    ∃ t1 t, completesTo (.unhandledOpcode op r) s t1 ∧ Host.Core.run core 3 t1 = .next t ∧
      t = { u with snapshots := t.snapshots }

/-- R22, R51, R101 and R102, the frame of every step of every instruction (NOP, ADD, SUB, an unhandled function, LOAD, STORE, an
unhandled opcode): no register but the one Write-Back's latch names, no memory word but the one Memory-Access's latch addresses
for a store, and never the configuration; the old snapshots stay (log entry 5). One word is consumed, by a faulting step too
(log entry 12). The canonical form (log entry 2) is an invariant (MemoryStaysCanonical). -/
def Obligations.StepFrame : Prop :=
  ∀ (i : Instr) (s t : State), Memory.wf s.mem → exec i s = .next t →
    (∀ q, ¬ (s.read.mw.regWrite = true ∧ s.read.mw.writeRegNum = q) → regGet t.regs q = regGet s.regs q) ∧
    (∀ a, ¬ (s.read.em.memRead = false ∧ s.read.em.memWrite = true ∧ s.read.em.aluResult.toNat = a) →
      memGet t.mem a = memGet s.mem a) ∧
    t.config = s.config ∧ t.input = s.input.tail ∧ s.snapshots <+: t.snapshots ∧
    (running t → t.write.fd.instr = s.input.headD 0)

/-! ## Invariants that every step keeps -/

/-- Memory stays in the model's canonical form (log entry 2, DEDUCED): indices rising, no word listed that equals its reset
contents, and no word listed outside the 1024 that 20_memory.md R50 gives. -/
def Obligations.MemoryStaysCanonical : Prop :=
  ∀ s t : State, Memory.wf s.mem → step s = .next t → Memory.wf t.mem

/-- R25: the read sides always reflect the write sides as they stood at the end of the step before. A faulting step keeps both
(the spec's decision D5, log entry 6). -/
def Obligations.ReadSidesFollowWriteSides : Prop :=
  ∀ s t : State, readFollowsWrite s → step s = .next t → readFollowsWrite t

/-- R107, R115, R121: every latch holds the controls of one of the four rows, so no latch ever loads and stores. That the marker
in aluOp is 0b10 is the spec's decision D9 (log entry 9), and STORE's two don't-cares are false by R108. -/
def Obligations.ControlSignalsStayLegal : Prop :=
  ∀ s t : State, legalControls s → step s = .next t → legalControls t

/-- R133, L2-C: one snapshot per completed step, each with the read sides that the one before it wrote. The list is the model's
own field (log entry 5), and a faulting step adds none (the spec's decision D5). -/
def Obligations.SnapshotsStayLinked : Prop :=
  ∀ s t : State, snapshotsLinked s → step s = .next t → snapshotsLinked t

/-- R201, R203: whatever fault a step records, its cause is true, its stage is its kind's, and its step is the next one. The
faults are the spec's decisions D1, D2 and D4, the record is its decision D5 (log entry 6). -/
def Obligations.FaultRecordStaysTruthful : Prop :=
  ∀ s t : State, truthfulFault s → step s = .next t → truthfulFault t
end

