-- ==== Sys2Proof/Laws/Encoding.lean ====
section
/-! SUPPORT. A packed word as a number, and each field read back from it (30_encoding.md R71 to R73);
what the decoder can answer. -/

namespace Sys2Proof

/-- A concatenation as a number. -/
theorem toNat_append_eq {n m : Nat} (a : BitVec n) (b : BitVec m) : (a ++ b).toNat = a.toNat * 2 ^ m + b.toNat := by
  rw [BitVec.toNat_append, ← Nat.shiftLeft_add_eq_or_of_lt b.isLt, Nat.shiftLeft_eq]

theorem toNat_lowRfmt (rd : RegIdx) (x : BitVec 5) (funct : Code6) :
    (lowRfmt rd x funct).toNat = rd.toNat * 2 ^ 11 + x.toNat * 2 ^ 6 + funct.toNat := by
  show ((rd ++ x) ++ funct).toNat = _
  rw [toNat_append_eq, toNat_append_eq]; omega

theorem toNat_packWord (op : Code6) (rs rt : RegIdx) (low : Half) :
    (packWord op rs rt low).toNat = op.toNat * 2 ^ 26 + rs.toNat * 2 ^ 21 + rt.toNat * 2 ^ 16 + low.toNat := by
  show (((op ++ rs) ++ rt) ++ low).toNat = _
  rw [toNat_append_eq, toNat_append_eq, toNat_append_eq]; omega

theorem toNat_packOpcode (op : Code6) (rest : BitVec 26) :
    (packOpcode op rest).toNat = op.toNat * 2 ^ 26 + rest.toNat := toNat_append_eq op rest

/-- A field as a number: `n` bits from bit `lo` up. -/
theorem toNat_field (w : Word) (lo n : Nat) : (w.extractLsb' lo n).toNat = w.toNat / 2 ^ lo % 2 ^ n := by
  rw [BitVec.extractLsb'_toNat, Nat.shiftRight_eq_div_pow]

@[simp] theorem fieldOp_packWord (op : Code6) (rs rt : RegIdx) (low : Half) : fieldOp (packWord op rs rt low) = op := by
  apply BitVec.eq_of_toNat_eq
  rw [fieldOp, toNat_field, toNat_packWord]; omega

@[simp] theorem fieldRs_packWord (op : Code6) (rs rt : RegIdx) (low : Half) : fieldRs (packWord op rs rt low) = rs := by
  apply BitVec.eq_of_toNat_eq
  rw [fieldRs, toNat_field, toNat_packWord]; omega

@[simp] theorem fieldRt_packWord (op : Code6) (rs rt : RegIdx) (low : Half) : fieldRt (packWord op rs rt low) = rt := by
  apply BitVec.eq_of_toNat_eq
  rw [fieldRt, toNat_field, toNat_packWord]; omega

@[simp] theorem fieldImm16_packWord (op : Code6) (rs rt : RegIdx) (low : Half) :
    fieldImm16 (packWord op rs rt low) = low := by
  apply BitVec.eq_of_toNat_eq
  rw [fieldImm16, toNat_field, toNat_packWord]; omega

@[simp] theorem fieldRd_packWord (op : Code6) (rs rt rd : RegIdx) (x : BitVec 5) (funct : Code6) :
    fieldRd (packWord op rs rt (lowRfmt rd x funct)) = rd := by
  apply BitVec.eq_of_toNat_eq
  rw [fieldRd, toNat_field, toNat_packWord, toNat_lowRfmt]; omega

@[simp] theorem fieldIgnored_packWord (op : Code6) (rs rt rd : RegIdx) (x : BitVec 5) (funct : Code6) :
    fieldIgnored (packWord op rs rt (lowRfmt rd x funct)) = x := by
  apply BitVec.eq_of_toNat_eq
  rw [fieldIgnored, toNat_field, toNat_packWord, toNat_lowRfmt]; omega

@[simp] theorem fieldFunct_packWord (op : Code6) (rs rt rd : RegIdx) (x : BitVec 5) (funct : Code6) :
    fieldFunct (packWord op rs rt (lowRfmt rd x funct)) = funct := by
  apply BitVec.eq_of_toNat_eq
  rw [fieldFunct, toNat_field, toNat_packWord, toNat_lowRfmt]; omega

@[simp] theorem fieldOp_packOpcode (op : Code6) (rest : BitVec 26) : fieldOp (packOpcode op rest) = op := by
  apply BitVec.eq_of_toNat_eq
  rw [fieldOp, toNat_field, toNat_packOpcode]; omega

@[simp] theorem fieldRest_packOpcode (op : Code6) (rest : BitVec 26) : fieldRest (packOpcode op rest) = rest := by
  apply BitVec.eq_of_toNat_eq
  rw [fieldRest, toNat_field, toNat_packOpcode]; omega

/-- All that the decoder can answer, with what it found out about the word (30_encoding.md R78 to R80). -/
theorem decode_cases (w : Word) :
    (w = 0#32 ∧ decode w = .nop) ∨
    (w ≠ 0#32 ∧ fieldOp w = opRfmt ∧ fieldFunct w = functAdd ∧
      decode w = .add (fieldRs w) (fieldRt w) (fieldRd w) (fieldIgnored w)) ∨
    (w ≠ 0#32 ∧ fieldOp w = opRfmt ∧ fieldFunct w = functSub ∧
      decode w = .sub (fieldRs w) (fieldRt w) (fieldRd w) (fieldIgnored w)) ∨
    (w ≠ 0#32 ∧ fieldOp w = opRfmt ∧ fieldFunct w ≠ functAdd ∧ fieldFunct w ≠ functSub ∧
      decode w = .rfmtUnhandledFunct (fieldRs w) (fieldRt w) (fieldRd w) (fieldIgnored w) (fieldFunct w)) ∨
    (fieldOp w = opLoad ∧ decode w = .load (fieldRs w) (fieldRt w) (fieldImm16 w)) ∨
    (fieldOp w = opStore ∧ decode w = .store (fieldRs w) (fieldRt w) (fieldImm16 w)) ∨
    (fieldOp w ≠ opRfmt ∧ fieldOp w ≠ opLoad ∧ fieldOp w ≠ opStore ∧
      decode w = .unhandledOpcode (fieldOp w) (fieldRest w)) := by
  unfold decode
  by_cases h0 : w = 0#32
  · exact .inl ⟨h0, if_pos h0⟩
  rw [if_neg h0]
  by_cases h1 : fieldOp w = opRfmt
  · rw [if_pos h1, decodeRfmt]
    by_cases h2 : fieldFunct w = functAdd
    · exact .inr (.inl ⟨h0, h1, h2, if_pos h2⟩)
    rw [if_neg h2]
    by_cases h3 : fieldFunct w = functSub
    · exact .inr (.inr (.inl ⟨h0, h1, h3, if_pos h3⟩))
    · exact .inr (.inr (.inr (.inl ⟨h0, h1, h2, h3, if_neg h3⟩)))
  rw [if_neg h1]
  by_cases h4 : fieldOp w = opLoad
  · exact .inr (.inr (.inr (.inr (.inl ⟨h4, if_pos h4⟩))))
  rw [if_neg h4]
  by_cases h5 : fieldOp w = opStore
  · exact .inr (.inr (.inr (.inr (.inr (.inl ⟨h5, if_pos h5⟩)))))
  · exact .inr (.inr (.inr (.inr (.inr (.inr ⟨h1, h4, h5, if_neg h5⟩)))))

end Sys2Proof
end

