-- ==== Sys2Proof/Laws/Memory.lean ====
section
/-! SUPPORT. Main memory: a read after a write, the words a write leaves alone, the canonical form (20_memory.md R57). -/

namespace Sys2Proof.Machine

/-- A memory whose listed indices all lie above `i` reads its initial contents at `i`. -/
theorem memGet_of_all_above (m : Memory) (i : Nat) (h : ∀ c ∈ m, i < c.1) : memGet m i = memInit i := by
  induction m with
  | nil => rfl
  | cons c m ih =>
    obtain ⟨j, u⟩ := c
    have hj : i < j := h (j, u) (by simp)
    simp [memGet, Nat.ne_of_lt hj, ih fun c hc => h c (by simp [hc])]

/-- The cells of one word read back as that word, and as nothing at another index. -/
theorem memGet_memCell_append (i k : Nat) (v : Word) (m : Memory) (h : ∀ c ∈ m, i < c.1) :
    memGet (memCell i v ++ m) k = if k = i then v else memGet m k := by
  have hm := memGet_of_all_above m i h
  unfold memCell
  split <;> split <;> simp_all [memGet]

/-- A read after a write gives the value written, and every other word reads as before. -/
theorem memGet_memSet (m : Memory) (i k : Nat) (v : Word) (h : m.Pairwise fun c d => c.1 < d.1) :
    memGet (memSet m i v) k = if k = i then v else memGet m k := by
  induction m with
  | nil => simpa [memSet] using memGet_memCell_append i k v [] (by simp)
  | cons c m ih =>
    obtain ⟨j, u⟩ := c
    obtain ⟨hj, hm⟩ := List.pairwise_cons.1 h
    simp only [memSet]
    split
    · refine memGet_memCell_append i k v _ ?_
      rintro c hc
      rcases List.mem_cons.1 hc with rfl | hc
      · assumption
      · have := hj c hc; simp at this; omega
    · split
      · subst_vars
        rw [memGet_memCell_append j k v m hj]
        by_cases hk : k = j <;> simp [memGet, hk]
      · by_cases hk : k = j <;> simp_all [memGet]
        omega

/-- Every index a write leaves listed is its own index or one listed before. -/
theorem mem_memSet (m : Memory) (i : Nat) (v : Word) (c : Nat × Word) (h : c ∈ memSet m i v) :
    (c = (i, v) ∧ v ≠ memInit i) ∨ c ∈ m := by
  induction m with
  | nil => simp only [memSet, memCell] at h; split at h <;> simp_all
  | cons d m ih =>
    obtain ⟨j, u⟩ := d
    simp only [memSet, memCell] at h
    split at h
    · split at h <;> simp_all
    · split at h
      · split at h <;> simp_all
        tauto
      · rcases List.mem_cons.1 h with rfl | h
        · simp
        · rcases ih h with h | h <;> simp [h]

/-- A write within the array keeps the canonical form. -/
theorem memSet_wf (m : Memory) (i : Nat) (v : Word) (h : Memory.wf m) (hi : i < memWords) : Memory.wf (memSet m i v) := by
  refine ⟨?_, fun c hc => ?_⟩
  · obtain ⟨h, -⟩ := h
    induction m with
    | nil => simp only [memSet, memCell]; split <;> simp
    | cons c m ih =>
      obtain ⟨j, u⟩ := c
      obtain ⟨hj, hm⟩ := List.pairwise_cons.1 h
      simp only [memSet, memCell]
      split
      · split
        · exact h
        · refine List.pairwise_cons.2 ⟨?_, h⟩
          rintro c hc
          rcases List.mem_cons.1 hc with rfl | hc
          · assumption
          · have := hj c hc; simp at this ⊢; omega
      · split
        · subst_vars
          split
          · exact hm
          · exact List.pairwise_cons.2 ⟨hj, hm⟩
        · refine List.pairwise_cons.2 ⟨?_, ih hm⟩
          rintro c hc
          rcases mem_memSet m i v c hc with ⟨rfl, -⟩ | hc
          · simp; omega
          · exact hj c hc
  · rcases mem_memSet m i v c hc with ⟨rfl, hv⟩ | hc
    · exact ⟨hi, hv⟩
    · exact h.2 c hc

/-- What a load can answer: the word, in range; or the fault, out of range. -/
theorem memLoad_eq_ok {m : Memory} {a v : Word} : memLoad m a = .ok v ↔ a.toNat < 1024 ∧ v = memGet m a.toNat := by
  unfold memLoad inRange memWords
  split <;> simp_all [eq_comm]

theorem memLoad_eq_error {m : Memory} {a : Word} {c : FaultCause} :
    memLoad m a = .error c ↔ 1024 ≤ a.toNat ∧ c = .memOutOfRange a := by
  unfold memLoad inRange memWords
  split <;> simp_all [eq_comm]

/-- What a store can answer: the memory with that one word replaced, in range; or the fault. -/
theorem memStore_eq_ok {m m' : Memory} {a v : Word} :
    memStore m a v = .ok m' ↔ a.toNat < 1024 ∧ m' = memSet m a.toNat v := by
  unfold memStore inRange memWords
  split <;> simp_all [eq_comm]

theorem memStore_eq_error {m : Memory} {a v : Word} {c : FaultCause} :
    memStore m a v = .error c ↔ 1024 ≤ a.toNat ∧ c = .memOutOfRange a := by
  unfold memStore inRange memWords
  split <;> simp_all [eq_comm]

end Sys2Proof.Machine
end

