-- ==== Sys2Proof/Laws/Operands.lean ====
section
/-! SUPPORT. The operand forms: the fields Decode takes from a low half, the ALU by function, the branch test. -/

namespace Sys2Proof.Machine

/-- An R-format low half gives back its function and its destination (30_encoding.md R71, R72). -/
@[simp] theorem lowFunct_lowRfmt (rd : RegIdx) (x : BitVec 5) (funct : Code6) : lowFunct (lowRfmt rd x funct) = funct := by
  apply BitVec.eq_of_toNat_eq
  rw [lowFunct, BitVec.extractLsb'_toNat, Nat.shiftRight_eq_div_pow, toNat_lowRfmt]; omega

@[simp] theorem lowWriteRegR_lowRfmt (rd : RegIdx) (x : BitVec 5) (funct : Code6) :
    lowWriteRegR (lowRfmt rd x funct) = rd := by
  apply BitVec.eq_of_toNat_eq
  rw [lowWriteRegR, BitVec.extractLsb'_toNat, Nat.shiftRight_eq_div_pow, toNat_lowRfmt]; omega

/-- The low half's fields are the word's (30_encoding.md R71). -/
theorem lowFunct_fieldImm16 (w : Word) : lowFunct (fieldImm16 w) = fieldFunct w := by
  apply BitVec.eq_of_toNat_eq
  rw [lowFunct, BitVec.extractLsb'_toNat, Nat.shiftRight_eq_div_pow, fieldImm16, fieldFunct, toNat_field, toNat_field]; omega

theorem lowWriteRegR_fieldImm16 (w : Word) : lowWriteRegR (fieldImm16 w) = fieldRd w := by
  apply BitVec.eq_of_toNat_eq
  rw [lowWriteRegR, BitVec.extractLsb'_toNat, Nat.shiftRight_eq_div_pow, fieldImm16, fieldRd, toNat_field, toNat_field]
  omega

theorem lowRfmt_fields (w : Word) : lowRfmt (fieldRd w) (fieldIgnored w) (fieldFunct w) = fieldImm16 w := by
  apply BitVec.eq_of_toNat_eq
  rw [toNat_lowRfmt, fieldRd, fieldIgnored, fieldFunct, fieldImm16, toNat_field, toNat_field, toNat_field, toNat_field]
  omega

/-- Sign extension as a number: bit 15 adds 0xFFFF0000 (30_encoding.md R75). -/
theorem toNat_sext32 (v : Half) : (sext32 v).toNat = v.toNat + (if v.msb then 0xFFFF0000 else 0) := by
  rw [sext32, BitVec.toNat_signExtend, BitVec.toNat_setWidth_of_le (by decide)]

/-- The ALU adds for function 0x20, subtracts for 0x22, and has no result for any other (30_encoding.md R79). -/
@[simp] theorem aluRegister_add (a b : Word) : aluRegister functAdd a b = some (a + b) := rfl
@[simp] theorem aluRegister_sub (a b : Word) : aluRegister functSub a b = some (a - b) := rfl
theorem aluRegister_unhandled {funct : Code6} (a b : Word) (h : funct ≠ functAdd) (h' : funct ≠ functSub) :
    aluRegister funct a b = none := by simp [aluRegister, h, h']

theorem aluRegister_eq_none {funct : Code6} {a b : Word} :
    aluRegister funct a b = none ↔ funct ≠ functAdd ∧ funct ≠ functSub := by
  unfold aluRegister; split_ifs <;> simp_all

/-- Decode latches the control row it is given, and the branch test reads it (40_pipeline.md R112). -/
@[simp] theorem registerBranch_decodedLatch (row : ControlRow) (rs rt : RegIdx) (low : Half) (rf : RegFile) :
    registerBranch (decodedLatch row rs rt low rf) = (row.aluOp == aluOpRfmt && !row.aluSrc) := rfl

theorem registerBranch_iff {d : DELatch} : registerBranch d = true ↔ d.aluOp = 0b10#2 ∧ d.aluSrc = false := by
  simp [registerBranch, aluOpRfmt]

end Sys2Proof.Machine
end

