-- ==== Sys2Proof/Laws/PerInstr.lean ====
section
/-! SUPPORT. One family of statements about every instruction as syntax: its word has its row's fixed bits
(spec/opcode_table.json), by one lemma per constructor. -/

namespace Sys2Proof.Laws.EncodeFixedBits

open Sys2Proof.Machine

/-- The word of an instruction has the bits its row of the table fixes; the catch-all row fixes none. -/
def Statement (i : Instr) : Prop :=
  ∃ row ∈ tableRows, row.1 = rowOf i ∧ encode i &&& row.2.1 = row.2.2

/-- A mask distributes over the parts of a word it covers, split above bit `m`. -/
theorem append_and_append {n m : Nat} (a a' : BitVec n) (b b' : BitVec m) :
    (a ++ b) &&& (a' ++ b') = (a &&& a') ++ (b &&& b') := by
  ext i hi
  simp only [BitVec.getElem_and, BitVec.getElem_append]
  split <;> simp

/-- The opcode mask 0xFC000000 keeps the opcode of a packed word and nothing else. -/
theorem packWord_and_opcodeMask (op : Code6) (rs rt : RegIdx) (low : Half) :
    packWord op rs rt low &&& 0xFC000000#32 = packWord op 0 0 0 := by
  rw [show (0xFC000000#32 : Word) = packWord 0x3F#6 0 0 0 by decide]
  unfold packWord
  erw [append_and_append, append_and_append, append_and_append]
  rw [show op &&& 0x3F#6 = op from by rw [show (0x3F#6 : Code6) = BitVec.allOnes 6 by decide]; exact BitVec.and_allOnes]
  simp

/-- The mask 0xFC00003F keeps the opcode and the function of an R-format word and nothing else. -/
theorem packWord_and_functMask (op : Code6) (rs rt rd : RegIdx) (x : BitVec 5) (f : Code6) :
    packWord op rs rt (lowRfmt rd x f) &&& 0xFC00003F#32 = packWord op 0 0 (lowRfmt 0 0 f) := by
  rw [show (0xFC00003F#32 : Word) = packWord 0x3F#6 0 0 (lowRfmt 0 0 0x3F#6) by decide]
  unfold packWord lowRfmt
  erw [append_and_append, append_and_append, append_and_append, append_and_append, append_and_append]
  rw [show op &&& 0x3F#6 = op from by rw [show (0x3F#6 : Code6) = BitVec.allOnes 6 by decide]; exact BitVec.and_allOnes,
    show f &&& 0x3F#6 = f from by rw [show (0x3F#6 : Code6) = BitVec.allOnes 6 by decide]; exact BitVec.and_allOnes]
  simp

theorem nop : Statement .nop := ⟨tableRows[0], by decide, rfl, by decide⟩

theorem add (rs rt rd : RegIdx) (x : BitVec 5) : Statement (.add rs rt rd x) :=
  ⟨tableRows[1], by decide, rfl, packWord_and_functMask opRfmt rs rt rd x functAdd⟩

theorem sub (rs rt rd : RegIdx) (x : BitVec 5) : Statement (.sub rs rt rd x) :=
  ⟨tableRows[2], by decide, rfl, packWord_and_functMask opRfmt rs rt rd x functSub⟩

theorem rfmtUnhandledFunct (rs rt rd : RegIdx) (x : BitVec 5) (funct : Code6) :
    Statement (.rfmtUnhandledFunct rs rt rd x funct) :=
  ⟨tableRows[3], by decide, rfl, packWord_and_opcodeMask opRfmt rs rt (lowRfmt rd x funct)⟩

theorem load (rs rt : RegIdx) (imm : Half) : Statement (.load rs rt imm) :=
  ⟨tableRows[4], by decide, rfl, packWord_and_opcodeMask opLoad rs rt imm⟩

theorem store (rs rt : RegIdx) (imm : Half) : Statement (.store rs rt imm) :=
  ⟨tableRows[5], by decide, rfl, packWord_and_opcodeMask opStore rs rt imm⟩

theorem unhandledOpcode (op : Code6) (rest : BitVec 26) : Statement (.unhandledOpcode op rest) :=
  ⟨tableRows[6], by decide, rfl, BitVec.and_zero⟩

end Sys2Proof.Laws.EncodeFixedBits
end

