-- ==== Sys2Proof/Laws/Registers.lean ====
section
/-! SUPPORT. The register file: a read after a write, the registers a write leaves alone (10_state.md R20 to R22). -/

namespace Sys2Proof.Machine

theorem regGet_regSet (rf : RegFile) (r q : RegIdx) (v : Word) :
    regGet (regSet rf r v) q = if q = r then v else regGet rf q := by
  unfold regGet regSet
  rw [Vector.getElem_set]
  by_cases h : q = r
  · simp [h]
  · have : r.toNat ≠ q.toNat := fun e => h (BitVec.eq_of_toNat_eq e.symm)
    simp [h, this]

@[simp] theorem regGet_regSet_same (rf : RegFile) (r : RegIdx) (v : Word) : regGet (regSet rf r v) r = v := by
  simp [regGet_regSet]

theorem regGet_regSet_other (rf : RegFile) {r q : RegIdx} (v : Word) (h : q ≠ r) :
    regGet (regSet rf r v) q = regGet rf q := by
  simp [regGet_regSet, h]

/-- Write-Back changes at most the latched destination (40_pipeline.md R122). -/
theorem regGet_writeBackRegs (m : MWLatch) (rf : RegFile) (q : RegIdx) :
    regGet (writeBackRegs m rf) q = if m.regWrite = true ∧ q = m.writeRegNum then writeBackValue m else regGet rf q := by
  unfold writeBackRegs
  split <;> simp_all [regGet_regSet]

@[simp] theorem writeBackRegs_of_not (m : MWLatch) (rf : RegFile) (h : m.regWrite = false) : writeBackRegs m rf = rf := by
  simp [writeBackRegs, h]

end Sys2Proof.Machine
end

