-- ==== Sys2Proof/Laws/Stages.lean ====
section
/-! SUPPORT. What each stage can answer, said once, and a whole step as one equation: a proof about a step cites
`clockStep_eq` or `completes_iff` and unfolds no stage. -/

namespace Sys2Proof.Machine

/-- The DE latch Decode leaves on the write side, or its fault. -/
def decodedDE (d : DecodeAction) (s : State) : Except FaultCause DELatch :=
  match d with
  | .latch row rs rt low => .ok (decodedLatch row rs rt low s.regs)
  | .unhandled word =>
    match s.config.unhandledMode with
    | .fault => .error (.unhandledOpcode word)
    | .retain => .ok s.write.de

/-- The write sides a completed step leaves. -/
def steppedSide (w : Word) (de : DELatch) (em : EMLatch) (v : Word) (s : State) : LatchSide :=
  { fd := { instr := w }, de := de, em := em, mw := accessedLatch s.read.em v }

/-- The state a completed step leaves: `w` was fetched, `de` decoded, `em` executed, `m` and `v` came from the access. -/
def stepped (w : Word) (rest : List Word) (de : DELatch) (em : EMLatch) (m : Memory) (v : Word) (s : State) : State :=
  { config := s.config
    regs := writeBackRegs s.read.mw s.regs
    mem := m
    write := steppedSide w de em v s
    read := steppedSide w de em v s
    steps := s.steps + 1
    fault := s.fault
    input := rest
    snapshots := s.snapshots ++
      [{ write := steppedSide w de em v s, read := s.read, regs := writeBackRegs s.read.mw s.regs }] }

/-- Fetch and Decode together: the word is latched, and DE is written or the fault raised. -/
theorem decodeStage_fetchStage (d : DecodeAction) (w : Word) (t : State) :
    decodeStage d (fetchStage w t) =
      match decodedDE d t with
      | .error c => .error c
      | .ok de => .ok { t with write := { t.write with fd := { instr := w }, de := de } } := by
  cases d with
  | latch row rs rt low => rfl
  | unhandled word =>
    cases h : t.config.unhandledMode <;> simp only [decodeStage, decodedDE, fetchStage, h]

/-- A whole step of a running machine with a word to fetch: Decode, then Execute, then Memory-Access may fault, in that order;
otherwise the step completes (40_pipeline.md R128). -/
theorem clockStep_eq (d : DecodeAction) (s : State) (w : Word) (rest : List Word) (hf : s.fault = none)
    (hi : s.input = w :: rest) :
    clockStep d s =
      match decodedDE d s with
      | .error c => .next (takeFault c { s with input := rest })
      | .ok de =>
        match executeLatch s.config.unhandledMode s.write.em.aluResult s.read.de with
        | .error c => .next (takeFault c { s with input := rest })
        | .ok em =>
          match accessMemory s.read.em s.mem with
          | .error c => .next (takeFault c { s with input := rest })
          | .ok (m, v) => .next (stepped w rest de em m v s) := by
  have hd : decodedDE d { s with input := rest } = decodedDE d s := by cases d <;> rfl
  unfold clockStep runStages executeStage memoryStage
  rw [hf, hi]
  dsimp only
  rw [decodeStage_fetchStage, ← hf, hd]
  cases decodedDE d s with
  | error c => rfl
  | ok de =>
    dsimp only
    cases executeLatch s.config.unhandledMode s.write.em.aluResult s.read.de with
    | error c => rfl
    | ok em =>
      dsimp only
      cases accessMemory s.read.em s.mem with
      | error c => rfl
      | ok p => rfl

/-- What Decode does with each instruction. -/
def actionOf : Instr → DecodeAction
  | .nop => .latch rowNop 0 0 0
  | .add rs rt rd x => .latch rowRfmt rs rt (lowRfmt rd x functAdd)
  | .sub rs rt rd x => .latch rowRfmt rs rt (lowRfmt rd x functSub)
  | .rfmtUnhandledFunct rs rt rd x funct => .latch rowRfmt rs rt (lowRfmt rd x funct)
  | .load rs rt imm => .latch rowLoad rs rt imm
  | .store rs rt imm => .latch rowStore rs rt imm
  | .unhandledOpcode op rest => .unhandled (packOpcode op rest)

/-- Every instruction's meaning is the step in which Decode does its action. -/
theorem exec_eq (i : Instr) (s : State) : exec i s = clockStep (actionOf i) s := by cases i <;> rfl

/-- A faulted machine has no step (R101). -/
theorem exec_of_faulted (i : Instr) (s : State) (r : FaultRecord) (h : s.fault = some r) :
    exec i s = .fault (.halted r) := by rw [exec_eq, clockStep, h]

/-- A running machine without a word has no step (R132). -/
theorem exec_of_noWord (i : Instr) (s : State) (hf : s.fault = none) (hi : s.input = []) :
    exec i s = .refused .streamExhausted := by rw [exec_eq, clockStep, hf, hi]

/-- Everything a step can end in when it answers a next state: it started from a running machine with a word, and it either
raised one fault, leaving the state before it but for the word and the record, or completed all five stages. -/
theorem exec_next_cases {i : Instr} {s t : State} (h : exec i s = .next t) :
    s.fault = none ∧ ∃ w rest, s.input = w :: rest ∧
      ((∃ c, t = takeFault c { s with input := rest }) ∨
       ∃ de em m v, decodedDE (actionOf i) s = .ok de ∧
         executeLatch s.config.unhandledMode s.write.em.aluResult s.read.de = .ok em ∧
         accessMemory s.read.em s.mem = .ok (m, v) ∧ t = stepped w rest de em m v s) := by
  rcases hf : s.fault with _ | r
  · rcases hi : s.input with _ | ⟨w, rest⟩
    · rw [exec_of_noWord i s hf hi] at h; cases h
    · refine ⟨rfl, w, rest, rfl, ?_⟩
      rw [exec_eq, clockStep_eq _ s w rest hf hi] at h
      split at h
      · exact .inl ⟨_, by injection h with h; exact h.symm⟩
      · split at h
        · exact .inl ⟨_, by injection h with h; exact h.symm⟩
        · split at h
          · exact .inl ⟨_, by injection h with h; exact h.symm⟩
          · injection h with h
            exact .inr ⟨_, _, _, _, ‹_›, ‹_›, ‹_›, h.symm⟩
  · rw [exec_of_faulted i s r hf] at h; cases h

/-- A completed step, forwards and backwards. -/
theorem completes_iff {i : Instr} {s t : State} :
    exec i s = .next t ∧ t.fault = none ↔
      s.fault = none ∧ ∃ w rest de em m v, s.input = w :: rest ∧ decodedDE (actionOf i) s = .ok de ∧
        executeLatch s.config.unhandledMode s.write.em.aluResult s.read.de = .ok em ∧
        accessMemory s.read.em s.mem = .ok (m, v) ∧ t = stepped w rest de em m v s := by
  constructor
  · rintro ⟨h, ht⟩
    obtain ⟨hf, w, rest, hi, ⟨c, rfl⟩ | ⟨de, em, m, v, h1, h2, h3, rfl⟩⟩ := exec_next_cases h
    · simp [takeFault] at ht
    · exact ⟨hf, w, rest, de, em, m, v, hi, h1, h2, h3, rfl⟩
  · rintro ⟨hf, w, rest, de, em, m, v, hi, h1, h2, h3, rfl⟩
    refine ⟨?_, hf⟩
    rw [exec_eq, clockStep_eq _ s w rest hf hi, h1, h2, h3]

/-- What Memory-Access can do: load a word in range, store a word in range, or touch nothing (R118). -/
theorem accessMemory_ok {e : EMLatch} {m m' : Memory} {v : Word} (h : accessMemory e m = .ok (m', v)) :
    (e.memRead = true ∧ e.aluResult.toNat < 1024 ∧ m' = m ∧ v = memGet m e.aluResult.toNat) ∨
    (e.memRead = false ∧ e.memWrite = true ∧ e.aluResult.toNat < 1024 ∧ m' = memSet m e.aluResult.toNat e.swValue ∧ v = 0) ∨
    (e.memRead = false ∧ e.memWrite = false ∧ m' = m ∧ v = 0) := by
  unfold accessMemory at h
  split at h
  · split at h <;> rename_i hl <;> cases h
    obtain ⟨hr, hv⟩ := memLoad_eq_ok.1 hl
    exact .inl ⟨‹_›, hr, rfl, hv⟩
  · split at h
    · split at h <;> rename_i hl <;> cases h
      obtain ⟨hr, hv⟩ := memStore_eq_ok.1 hl
      exact .inr (.inl ⟨by simpa using ‹¬e.memRead = true›, ‹_›, hr, hv, rfl⟩)
    · cases h
      exact .inr (.inr ⟨by simpa using ‹¬e.memRead = true›, by simpa using ‹¬e.memWrite = true›, rfl, rfl⟩)

/-- Memory-Access faults exactly on an access out of range, whichever kind it is (60_exceptions.md R207). -/
theorem accessMemory_error {e : EMLatch} {m : Memory} {c : FaultCause} :
    accessMemory e m = .error c ↔
      (e.memRead = true ∨ e.memWrite = true) ∧ 1024 ≤ e.aluResult.toNat ∧ c = .memOutOfRange e.aluResult := by
  unfold accessMemory
  cases e.memRead <;> cases e.memWrite <;> simp
  · constructor
    · intro h; split at h <;> rename_i hl <;> cases h; exact memStore_eq_error.1 hl
    · rintro h; rw [memStore_eq_error.2 h]
  all_goals
    constructor
    · intro h; split at h <;> rename_i hl <;> cases h; exact memLoad_eq_error.1 hl
    · rintro h; rw [memLoad_eq_error.2 h]

/-- What Execute can write: the register-format result by function, the stale result in Retain mode, or base plus offset; the
controls and the second operand pass through in every case (R111 to R117). -/
theorem executeLatch_ok {mode : UnhandledMode} {old : Word} {d : DELatch} {e : EMLatch}
    (h : executeLatch mode old d = .ok e) :
    (registerBranch d = true ∧ ∃ r, aluRegister d.funct d.readData1 d.readData2 = some r ∧
      e = executedLatch d r d.writeRegR) ∨
    (registerBranch d = true ∧ aluRegister d.funct d.readData1 d.readData2 = none ∧ mode = .retain ∧
      e = executedLatch d old d.writeRegR) ∨
    (registerBranch d = false ∧ e = executedLatch d (effectiveAddress d.readData1 d.seOffset) d.writeRegI) := by
  unfold executeLatch at h
  split at h
  · split at h
    · cases h; exact .inl ⟨‹_›, _, ‹_›, rfl⟩
    · split at h <;> cases h
      exact .inr (.inl ⟨‹_›, ‹_›, rfl, rfl⟩)
  · cases h
    exact .inr (.inr ⟨by simpa using ‹¬registerBranch d = true›, rfl⟩)

/-- Execute faults exactly on an unhandled function in Fault mode (60_exceptions.md R206). -/
theorem executeLatch_error {mode : UnhandledMode} {old : Word} {d : DELatch} {c : FaultCause} :
    executeLatch mode old d = .error c ↔
      registerBranch d = true ∧ aluRegister d.funct d.readData1 d.readData2 = none ∧ mode = .fault ∧
        c = .unhandledFunct d.funct := by
  unfold executeLatch
  cases registerBranch d <;> simp
  split <;> rename_i h <;> simp [h]
  cases mode <;> simp [eq_comm]

/-- Execute, forwards: the three ways it answers a latch. -/
theorem executeLatch_register {mode : UnhandledMode} {old r : Word} {d : DELatch} (hb : registerBranch d = true)
    (hr : aluRegister d.funct d.readData1 d.readData2 = some r) :
    executeLatch mode old d = .ok (executedLatch d r d.writeRegR) := by simp [executeLatch, hb, hr]

theorem executeLatch_stale {old : Word} {d : DELatch} (hb : registerBranch d = true)
    (hr : aluRegister d.funct d.readData1 d.readData2 = none) :
    executeLatch .retain old d = .ok (executedLatch d old d.writeRegR) := by simp [executeLatch, hb, hr]

theorem executeLatch_immediate {mode : UnhandledMode} {old : Word} {d : DELatch} (hb : registerBranch d = false) :
    executeLatch mode old d = .ok (executedLatch d (effectiveAddress d.readData1 d.seOffset) d.writeRegI) := by
  simp [executeLatch, hb]

/-- A latch with an `aluOp` of 0 takes the immediate branch: NOP, LOAD, STORE and bubbles (R112). -/
theorem registerBranch_of_zero {d : DELatch} (h : d.aluOp = 0) : registerBranch d = false := by
  simp [registerBranch, aluOpRfmt, h]

/-- Memory-Access, forwards: the three ways it answers. -/
theorem accessMemory_load {e : EMLatch} {m : Memory} (hr : e.memRead = true) (ha : e.aluResult.toNat < 1024) :
    accessMemory e m = .ok (m, memGet m e.aluResult.toNat) := by
  simp [accessMemory, hr, memLoad_eq_ok.2 ⟨ha, rfl⟩]

theorem accessMemory_store {e : EMLatch} {m : Memory} (hr : e.memRead = false) (hw : e.memWrite = true)
    (ha : e.aluResult.toNat < 1024) :
    accessMemory e m = .ok (memSet m e.aluResult.toNat e.swValue, 0) := by
  simp [accessMemory, hr, hw, memStore_eq_ok.2 ⟨ha, rfl⟩]

theorem accessMemory_neither {e : EMLatch} {m : Memory} (hr : e.memRead = false) (hw : e.memWrite = false) :
    accessMemory e m = .ok (m, 0) := by simp [accessMemory, hr, hw]

/-- Memory-Access keeps the canonical form (20_memory.md R57). -/
theorem accessMemory_wf {e : EMLatch} {m m' : Memory} {v : Word} (h : accessMemory e m = .ok (m', v))
    (hwf : Memory.wf m) : Memory.wf m' := by
  rcases accessMemory_ok h with ⟨-, -, rfl, -⟩ | ⟨-, -, ha, rfl, -⟩ | ⟨-, -, rfl, -⟩
  · exact hwf
  · exact memSet_wf _ _ _ hwf ha
  · exact hwf

/-- Decode answers a latch for every handled word, whatever the mode (40_pipeline.md R110). -/
@[simp] theorem decodedDE_latch (row : ControlRow) (rs rt : RegIdx) (low : Half) (s : State) :
    decodedDE (.latch row rs rt low) s = .ok (decodedLatch row rs rt low s.regs) := rfl

theorem decodedDE_unhandled_fault (word : Word) (s : State) (h : s.config.unhandledMode = .fault) :
    decodedDE (.unhandled word) s = .error (.unhandledOpcode word) := by simp [decodedDE, h]

theorem decodedDE_unhandled_retain (word : Word) (s : State) (h : s.config.unhandledMode = .retain) :
    decodedDE (.unhandled word) s = .ok s.write.de := by simp [decodedDE, h]

end Sys2Proof.Machine
end

