-- ==== Sys2Proof/Laws/State.lean ====
section
/-! SUPPORT. One lemma per field of State per named update of State, each true by unfolding: no later proof unfolds a record
update. -/

namespace Sys2Proof.Machine

/-! Fetch -/

@[simp] theorem fetchStage_config (w : Word) (t : State) : (fetchStage w t).config = t.config := rfl
@[simp] theorem fetchStage_regs (w : Word) (t : State) : (fetchStage w t).regs = t.regs := rfl
@[simp] theorem fetchStage_mem (w : Word) (t : State) : (fetchStage w t).mem = t.mem := rfl
@[simp] theorem fetchStage_write (w : Word) (t : State) : (fetchStage w t).write = { t.write with fd := { instr := w } } := rfl
@[simp] theorem fetchStage_read (w : Word) (t : State) : (fetchStage w t).read = t.read := rfl
@[simp] theorem fetchStage_steps (w : Word) (t : State) : (fetchStage w t).steps = t.steps := rfl
@[simp] theorem fetchStage_fault (w : Word) (t : State) : (fetchStage w t).fault = t.fault := rfl
@[simp] theorem fetchStage_input (w : Word) (t : State) : (fetchStage w t).input = t.input := rfl
@[simp] theorem fetchStage_snapshots (w : Word) (t : State) : (fetchStage w t).snapshots = t.snapshots := rfl

/-! Write-Back -/

@[simp] theorem writeBackStage_config (t : State) : (writeBackStage t).config = t.config := rfl
@[simp] theorem writeBackStage_regs (t : State) : (writeBackStage t).regs = writeBackRegs t.read.mw t.regs := rfl
@[simp] theorem writeBackStage_mem (t : State) : (writeBackStage t).mem = t.mem := rfl
@[simp] theorem writeBackStage_write (t : State) : (writeBackStage t).write = t.write := rfl
@[simp] theorem writeBackStage_read (t : State) : (writeBackStage t).read = t.read := rfl
@[simp] theorem writeBackStage_steps (t : State) : (writeBackStage t).steps = t.steps := rfl
@[simp] theorem writeBackStage_fault (t : State) : (writeBackStage t).fault = t.fault := rfl
@[simp] theorem writeBackStage_input (t : State) : (writeBackStage t).input = t.input := rfl
@[simp] theorem writeBackStage_snapshots (t : State) : (writeBackStage t).snapshots = t.snapshots := rfl

/-! The snapshot -/

@[simp] theorem exposeSnapshot_config (t : State) : (exposeSnapshot t).config = t.config := rfl
@[simp] theorem exposeSnapshot_regs (t : State) : (exposeSnapshot t).regs = t.regs := rfl
@[simp] theorem exposeSnapshot_mem (t : State) : (exposeSnapshot t).mem = t.mem := rfl
@[simp] theorem exposeSnapshot_write (t : State) : (exposeSnapshot t).write = t.write := rfl
@[simp] theorem exposeSnapshot_read (t : State) : (exposeSnapshot t).read = t.read := rfl
@[simp] theorem exposeSnapshot_steps (t : State) : (exposeSnapshot t).steps = t.steps := rfl
@[simp] theorem exposeSnapshot_fault (t : State) : (exposeSnapshot t).fault = t.fault := rfl
@[simp] theorem exposeSnapshot_input (t : State) : (exposeSnapshot t).input = t.input := rfl
@[simp] theorem exposeSnapshot_snapshots (t : State) : (exposeSnapshot t).snapshots = t.snapshots ++ [{ write := t.write, read := t.read, regs := t.regs }] := rfl

/-! Commit -/

@[simp] theorem commit_config (t : State) : (commit t).config = t.config := rfl
@[simp] theorem commit_regs (t : State) : (commit t).regs = t.regs := rfl
@[simp] theorem commit_mem (t : State) : (commit t).mem = t.mem := rfl
@[simp] theorem commit_write (t : State) : (commit t).write = t.write := rfl
@[simp] theorem commit_read (t : State) : (commit t).read = t.write := rfl
@[simp] theorem commit_steps (t : State) : (commit t).steps = t.steps + 1 := rfl
@[simp] theorem commit_fault (t : State) : (commit t).fault = t.fault := rfl
@[simp] theorem commit_input (t : State) : (commit t).input = t.input := rfl
@[simp] theorem commit_snapshots (t : State) : (commit t).snapshots = t.snapshots := rfl

/-! Raising a fault -/

@[simp] theorem takeFault_config (c : FaultCause) (t : State) : (takeFault c t).config = t.config := rfl
@[simp] theorem takeFault_regs (c : FaultCause) (t : State) : (takeFault c t).regs = t.regs := rfl
@[simp] theorem takeFault_mem (c : FaultCause) (t : State) : (takeFault c t).mem = t.mem := rfl
@[simp] theorem takeFault_write (c : FaultCause) (t : State) : (takeFault c t).write = t.write := rfl
@[simp] theorem takeFault_read (c : FaultCause) (t : State) : (takeFault c t).read = t.read := rfl
@[simp] theorem takeFault_steps (c : FaultCause) (t : State) : (takeFault c t).steps = t.steps := rfl
@[simp] theorem takeFault_fault (c : FaultCause) (t : State) : (takeFault c t).fault = some { cause := c, step := t.steps + 1, stage := faultStage c } := rfl
@[simp] theorem takeFault_input (c : FaultCause) (t : State) : (takeFault c t).input = t.input := rfl
@[simp] theorem takeFault_snapshots (c : FaultCause) (t : State) : (takeFault c t).snapshots = t.snapshots := rfl

/-! The host's supply -/

@[simp] theorem supplyWords_config (ws : List Word) (t : State) : (supplyWords ws t).config = t.config := rfl
@[simp] theorem supplyWords_regs (ws : List Word) (t : State) : (supplyWords ws t).regs = t.regs := rfl
@[simp] theorem supplyWords_mem (ws : List Word) (t : State) : (supplyWords ws t).mem = t.mem := rfl
@[simp] theorem supplyWords_write (ws : List Word) (t : State) : (supplyWords ws t).write = t.write := rfl
@[simp] theorem supplyWords_read (ws : List Word) (t : State) : (supplyWords ws t).read = t.read := rfl
@[simp] theorem supplyWords_steps (ws : List Word) (t : State) : (supplyWords ws t).steps = t.steps := rfl
@[simp] theorem supplyWords_fault (ws : List Word) (t : State) : (supplyWords ws t).fault = t.fault := rfl
@[simp] theorem supplyWords_input (ws : List Word) (t : State) : (supplyWords ws t).input = t.input ++ ws := rfl
@[simp] theorem supplyWords_snapshots (ws : List Word) (t : State) : (supplyWords ws t).snapshots = t.snapshots := rfl

/-! A word placed in Decode -/

@[simp] theorem placeFetched_config (w : Word) (t : State) : (placeFetched w t).config = t.config := rfl
@[simp] theorem placeFetched_regs (w : Word) (t : State) : (placeFetched w t).regs = t.regs := rfl
@[simp] theorem placeFetched_mem (w : Word) (t : State) : (placeFetched w t).mem = t.mem := rfl
@[simp] theorem placeFetched_write (w : Word) (t : State) : (placeFetched w t).write = { t.write with fd := { instr := w } } := rfl
@[simp] theorem placeFetched_read (w : Word) (t : State) : (placeFetched w t).read = { t.read with fd := { instr := w } } := rfl
@[simp] theorem placeFetched_steps (w : Word) (t : State) : (placeFetched w t).steps = t.steps := rfl
@[simp] theorem placeFetched_fault (w : Word) (t : State) : (placeFetched w t).fault = t.fault := rfl
@[simp] theorem placeFetched_input (w : Word) (t : State) : (placeFetched w t).input = if t.input.isEmpty then [0x00000000#32] else t.input := rfl
@[simp] theorem placeFetched_snapshots (w : Word) (t : State) : (placeFetched w t).snapshots = t.snapshots := rfl

/-! Reset -/

@[simp] theorem resetWith_config (c : Config) : (State.resetWith c).config = c := rfl
@[simp] theorem resetWith_regs (c : Config) : (State.resetWith c).regs = c.regSeed.set 0 0 := rfl
@[simp] theorem resetWith_mem (c : Config) : (State.resetWith c).mem = [] := rfl
@[simp] theorem resetWith_write (c : Config) : (State.resetWith c).write = .zero := rfl
@[simp] theorem resetWith_read (c : Config) : (State.resetWith c).read = .zero := rfl
@[simp] theorem resetWith_steps (c : Config) : (State.resetWith c).steps = 0 := rfl
@[simp] theorem resetWith_fault (c : Config) : (State.resetWith c).fault = none := rfl
@[simp] theorem resetWith_input (c : Config) : (State.resetWith c).input = [] := rfl
@[simp] theorem resetWith_snapshots (c : Config) : (State.resetWith c).snapshots = [] := rfl

/-- Resetting keeps the configuration, so a second reset gives the same state (10_state.md R40). -/
@[simp] theorem hostReset_hostReset (t : State) : hostReset (hostReset t) = hostReset t := rfl

/-- After a word is placed, the next step decodes it. -/
theorem step_withFetchWord (s : State) (nbits w : Nat) :
    step (s.withFetchWord nbits w) = exec (decode (tableWord nbits w)) (s.withFetchWord nbits w) := rfl

end Sys2Proof.Machine
end

