-- ==== Sys2Proof/Laws/Step.lean ====
section
/-! SUPPORT. Steps and runs: a run of several steps taken apart, the fault conditions of Safety tied to the stages, a ready
state's step, and a second identical write. -/

namespace Sys2Proof.Machine

/-- A run of no step is over. -/
@[simp] theorem run_zero (s : State) : Host.Core.run core 0 s = .next s := rfl

/-- A run of any machine starts with a step. -/
theorem machine_run_succ_next (M : Host.Core) {n : Nat} {s t : M.State} :
    M.run (n + 1) s = .next t ↔ ∃ u, M.step s = .next u ∧ M.run n u = .next t := by
  rw [Host.Core.run]
  cases M.step s <;> simp

/-- A run of the block starts with a step. -/
theorem run_succ_next {n : Nat} {s t : State} :
    Host.Core.run core (n + 1) s = .next t ↔ ∃ u, step s = .next u ∧ Host.Core.run core n u = .next t :=
  machine_run_succ_next core

/-- A machine that answers a next state was running. -/
theorem running_of_exec {i : Instr} {s t : State} (h : exec i s = .next t) : running s := (exec_next_cases h).1

/-- A run that ends in a running state went through running states only. -/
theorem running_of_run {n : Nat} {s t : State} (h : Host.Core.run core n s = .next t) (ht : running t) : running s := by
  cases n with
  | zero => cases h; exact ht
  | succ n => obtain ⟨u, hu, -⟩ := run_succ_next.1 h; exact running_of_exec hu

/-- A step that completes, taken apart into its stages. -/
theorem step_completes {s t : State} (h : step s = .next t) (ht : running t) :
    ∃ w rest de em m v, s.input = w :: rest ∧ decodedDE (actionOf (decode s.read.fd.instr)) s = .ok de ∧
      executeLatch s.config.unhandledMode s.write.em.aluResult s.read.de = .ok em ∧
      accessMemory s.read.em s.mem = .ok (m, v) ∧ t = stepped w rest de em m v s :=
  (completes_iff.1 ⟨h, ht⟩).2

/-- A run of three steps that ends running, taken apart into its steps. -/
theorem run_three {s t : State} (h : Host.Core.run core 3 s = .next t) (ht : running t) :
    ∃ u v, step s = .next u ∧ running u ∧ step u = .next v ∧ running v ∧ step v = .next t ∧ running t := by
  obtain ⟨u, hu, h⟩ := run_succ_next.1 h
  obtain ⟨v, hv, h⟩ := run_succ_next.1 h
  obtain ⟨t', ht', h⟩ := run_succ_next.1 h
  cases h
  exact ⟨u, v, hu, running_of_exec hv, hv, running_of_exec ht', ht', ht⟩

/-- A no-op word in Decode: the next step is NOP's. -/
theorem step_of_noop {s : State} (h : s.read.fd.instr = 0) : step s = exec .nop s := by
  change exec (decode s.read.fd.instr) s = _
  rw [h]; rfl

/-- Execute in `s` faults exactly when UnhandledFunct is due, with that cause. -/
theorem executeLatch_eq_error_iff (s : State) (c : FaultCause) :
    executeLatch s.config.unhandledMode s.write.em.aluResult s.read.de = .error c ↔ executeFault s = some c := by
  rw [executeLatch_error, registerBranch_iff, aluRegister_eq_none, executeFault]
  simp only [functAdd, functSub]
  split <;> rename_i h
  · obtain ⟨h1, h2, h3, h4, h5⟩ := h
    simp [h1, h2, h3, h4, h5, eq_comm]
  · simp only [reduceCtorEq, iff_false]
    rintro ⟨⟨h1, h2⟩, ⟨h3, h4⟩, h5, -⟩
    exact h ⟨h1, h2, h3, h4, h5⟩

/-- Memory-Access in `s` faults exactly when MemOutOfRange is due, with that cause. -/
theorem accessMemory_eq_error_iff (s : State) (c : FaultCause) :
    accessMemory s.read.em s.mem = .error c ↔ memoryFault s = some c := by
  rw [accessMemory_error, memoryFault]
  split <;> rename_i h
  · simp only [h]; simp [eq_comm]
  · simp only [reduceCtorEq, iff_false]
    rintro ⟨h1, h2, -⟩
    exact h ⟨h1, h2⟩

/-- Decode in `s` faults exactly when UnhandledOpcode is due, with that cause. -/
theorem decodedDE_eq_error_iff (i : Instr) (s : State) (c : FaultCause) :
    decodedDE (actionOf i) s = .error c ↔ decodeFault i s = some c := by
  cases i <;> simp [actionOf, decodedDE, decodeFault]
  cases s.config.unhandledMode <;> simp

theorem executeLatch_ok_of (s : State) (h : executeFault s = none) :
    ∃ em, executeLatch s.config.unhandledMode s.write.em.aluResult s.read.de = .ok em := by
  cases he : executeLatch s.config.unhandledMode s.write.em.aluResult s.read.de with
  | ok em => exact ⟨em, rfl⟩
  | error c => rw [(executeLatch_eq_error_iff s c).1 he] at h; cases h

theorem accessMemory_ok_of (s : State) (h : memoryFault s = none) :
    ∃ m v, accessMemory s.read.em s.mem = .ok (m, v) := by
  cases he : accessMemory s.read.em s.mem with
  | ok p => exact ⟨p.1, p.2, rfl⟩
  | error c => rw [(accessMemory_eq_error_iff s c).1 he] at h; cases h

/-- From a ready state, an instruction that Decode latches completes, and DE holds what it latched. -/
theorem completes_of_ready {i : Instr} {s : State} {w : Word} {rest : List Word} {de : DELatch} (h : ready s w rest)
    (hd : decodedDE (actionOf i) s = .ok de) :
    ∃ t, completesTo i s t ∧ t.steps = s.steps + 1 ∧ t.write.de = de ∧ t.read.de = de := by
  obtain ⟨hf, hi, he, hm⟩ := h
  obtain ⟨em, he⟩ := executeLatch_ok_of s he
  obtain ⟨m, v, hm⟩ := accessMemory_ok_of s hm
  exact ⟨stepped w rest de em m v s, completes_iff.2 ⟨hf, w, rest, de, em, m, v, hi, hd, he, hm, rfl⟩, rfl, rfl, rfl⟩

/-- Storing the same word again changes nothing, in a canonical memory. -/
theorem memSet_memSet (m : Memory) (i : Nat) (v : Word) (h : m.Pairwise fun c d => c.1 < d.1) :
    memSet (memSet m i v) i v = memSet m i v := by
  induction m with
  | nil => by_cases hv : v = memInit i <;> simp [memSet, memCell, hv]
  | cons c m ih =>
    obtain ⟨j, u⟩ := c
    obtain ⟨hj, hm⟩ := List.pairwise_cons.1 h
    rcases Nat.lt_trichotomy i j with hij | rfl | hij
    · by_cases hv : v = memInit i <;> simp [memSet, memCell, hv, hij]
    · by_cases hv : v = memInit i
      · simp only [memSet, memCell, hv]
        simp only [lt_irrefl, if_false, if_true, List.nil_append]
        cases m with
        | nil => simp [memSet, memCell]
        | cons d m => simp [memSet, memCell, show i < d.1 from hj d (by simp)]
      · simp [memSet, memCell, hv]
    · have h1 : ¬ i < j := by omega
      have h2 : i ≠ j := by omega
      simp [memSet, h1, h2, ih hm]

/-- Writing the same register again changes nothing. -/
theorem regSet_regSet (rf : RegFile) (r : RegIdx) (v : Word) : regSet (regSet rf r v) r v = regSet rf r v := by
  ext i hi
  simp [regSet, Vector.getElem_set]

end Sys2Proof.Machine
end

