-- ==== Sys2Proof/Tests/Slice0.lean ====
section
/-! SUPPORT. Tests: the well-formedness checks, the decoding of words written out from the spec's encodings, single steps with
the results of 95_test_vectors.md, and for every statement with hypotheses a state and operands that meet them. -/

namespace Sys2Proof.Tests

open Sys2Proof.Machine

/-! ## Well-formedness: one ill-formed term per check -/

theorem test_illformed_funct_add : (Instr.rfmtUnhandledFunct 1 2 3 0 0x20#6).wellFormed = false := by decide
theorem test_illformed_funct_sub : (Instr.rfmtUnhandledFunct 1 2 3 0 0x22#6).wellFormed = false := by decide
theorem test_illformed_zero_word : (Instr.rfmtUnhandledFunct 0 0 0 0 0x00#6).wellFormed = false := by decide
theorem test_illformed_op_rfmt : (Instr.unhandledOpcode 0x00#6 0).wellFormed = false := by decide
theorem test_illformed_op_load : (Instr.unhandledOpcode 0x20#6 0).wellFormed = false := by decide
theorem test_illformed_op_store : (Instr.unhandledOpcode 0x28#6 0).wellFormed = false := by decide
theorem test_wellformed_one_bit_set : (Instr.rfmtUnhandledFunct 0 0 0 1 0x00#6).wellFormed = true := by decide

/-! ## Decoding: words written out bit by bit from 30_encoding.md R72 and R73 -/

theorem test_decode_nop : decode 0b00000000000000000000000000000000#32 = .nop := by decide
/-- op 000000, rs 00001, rt 00010, rd 00011, ignored 00000, funct 100000. -/
theorem test_decode_add : decode 0b00000000001000100001100000100000#32 = .add 1 2 3 0 := by decide
/-- op 000000, rs 10001, rt 01010, rd 11100, ignored 10101, funct 100010. -/
theorem test_decode_sub : decode 0b00000010001010101110010101100010#32 = .sub 17 10 28 21 := by decide
/-- op 000000, rs 00000, rt 00000, rd 00000, ignored 00000, funct 000001. -/
theorem test_decode_unhandled_funct : decode 0b00000000000000000000000000000001#32 = .rfmtUnhandledFunct 0 0 0 0 1 := by
  decide
/-- op 100000, rs 00011, rt 00100, imm 0000000100101101. -/
theorem test_decode_load : decode 0b10000000011001000000000100101101#32 = .load 3 4 301#16 := by decide
/-- op 101000, rs 00000, rt 00010, imm 1111111111111111. -/
theorem test_decode_store : decode 0b10100000000000101111111111111111#32 = .store 0 2 0xFFFF#16 := by decide
/-- op 100011 (0x23), the rest 00000000010000000000000000. -/
theorem test_decode_unhandled_opcode :
    decode 0b10001100000000010000000000000000#32 = .unhandledOpcode 0b100011#6 0b00000000010000000000000000#26 := by decide
/-- The assembler words of 30_encoding.md R82 and 95_test_vectors.md. -/
theorem test_encode_words :
    encode (.add 1 2 3 0) = 0x00221820#32 ∧ encode (.sub 2 1 0 0) = 0x00410022#32 ∧
    encode (.load 1 2 800#16) = 0x80220320#32 ∧ encode (.store 5 4 16#16) = 0xA0A40010#32 := by decide
theorem test_decodeTableWord : decodeTableWord 32 0xA0A40010 = some (.store 5 4 16#16) := by decide

/-! ## Small states -/

/-- The state an answer carries; the state after reset where it carries none. -/
def stateOf (o : Host.Outcome State Fault Refusal) : State :=
  match o with
  | .next s => s
  | .fault _ => State.reset
  | .refused _ => State.reset

/-- A running machine with empty latches and five no-ops to fetch. -/
def idle : State := { State.reset with input := [0, 0, 0, 0, 0] }

/-- The same in Retain mode. -/
def idleRetain : State := { idle with config.unhandledMode := .retain }

/-- A register-format instruction in Execute. -/
def inExecute (funct : Code6) (a b : Word) : State :=
  { idle with read.de := { DELatch.zero with aluOp := 2, regDst := true, regWrite := true, funct := funct,
                                             writeRegR := 3, readData1 := a, readData2 := b } }

/-- A load or a store in Execute. -/
def offsetInExecute (base offset : Word) : State :=
  { idle with read.de := { DELatch.zero with aluSrc := true, memRead := true, memToReg := true, regWrite := true,
                                             writeRegI := 4, readData1 := base, seOffset := offset } }

/-- A load in Memory-Access. -/
def loadAt (a : Word) : State :=
  { idle with read.em := { EMLatch.zero with memRead := true, memToReg := true, regWrite := true, aluResult := a,
                                             writeRegNum := 6 } }

/-- A store in Memory-Access, with a load of the same address behind it in Execute. -/
def storeAt (a v : Word) : State :=
  { idle with
    read.em := { EMLatch.zero with memWrite := true, aluResult := a, swValue := v }
    read.de := { DELatch.zero with aluSrc := true, memRead := true, memToReg := true, regWrite := true,
                                   writeRegI := 6, readData1 := a } }

/-- An instruction in Write-Back. -/
def inWriteBack (toReg wr : Bool) (loaded result : Word) (dest : RegIdx) : State :=
  { idle with read.mw := { memToReg := toReg, regWrite := wr, lwData := loaded, aluResult := result, writeRegNum := dest } }

/-! ## Single steps, results from 95_test_vectors.md section L2 -/

/-- L2-X: 0x7FFFFFFF + 1. -/
theorem test_add_wraps :
    (stateOf (step (inExecute 0x20#6 0x7FFFFFFF#32 1))).read.em.aluResult = 0x80000000#32 ∧
    (stateOf (step (inExecute 0x20#6 0xFFFFFFFF#32 1))).read.em.aluResult = 0 := by decide
/-- L2-X: rs minus rt. -/
theorem test_sub_wraps :
    (stateOf (step (inExecute 0x22#6 1 2))).read.em.aluResult = 0xFFFFFFFF#32 ∧
    (stateOf (step (inExecute 0x22#6 0 0x80000000#32))).read.em.aluResult = 0x80000000#32 := by decide
/-- L2-X: an unhandled function in Fault mode. -/
theorem test_unhandled_funct_faults :
    (stateOf (step (inExecute 0x21#6 1 2))).fault =
      some { cause := .unhandledFunct 0x21#6, step := 1, stage := .execute } := by decide
/-- L2-X: an unhandled function in Retain mode keeps 0x1234. -/
theorem test_unhandled_funct_retains :
    (stateOf (step { inExecute 0x21#6 1 2 with
      config.unhandledMode := .retain, write.em.aluResult := 0x1234#32 })).read.em.aluResult = 0x1234#32 := by decide
/-- L2-X: 2000 + (-2000), and 0 + (-1) without a fault. -/
theorem test_offset_added :
    (stateOf (step (offsetInExecute 2000 0xFFFFF830#32))).read.em.aluResult = 0 ∧
    (stateOf (step (offsetInExecute 0 0xFFFFFFFF#32))).read.em.aluResult = 0xFFFFFFFF#32 := by decide
/-- L2-M: MEM[1023] after reset. -/
theorem test_load_last_word : (stateOf (step (loadAt 1023))).read.mw.lwData = 0x000000FF#32 := by decide
/-- L2-M: address 1024. -/
theorem test_load_out_of_range :
    (stateOf (step (loadAt 1024))).fault =
      some { cause := .memOutOfRange 0x400#32, step := 1, stage := .memoryAccess } := by decide
/-- L2-M: MEM[116] gets 0xDEADBEEF, MEM[115] and MEM[117] stay. -/
theorem test_store_one_word :
    memGet (stateOf (step (storeAt 116 0xDEADBEEF#32))).mem 116 = 0xDEADBEEF#32 ∧
    memGet (stateOf (step (storeAt 116 0xDEADBEEF#32))).mem 115 = 115 ∧
    memGet (stateOf (step (storeAt 116 0xDEADBEEF#32))).mem 117 = 117 := by decide
/-- L2-M: a store out of range touches nothing. -/
theorem test_store_out_of_range :
    (stateOf (step (storeAt 0xFFFFFFFF#32 1))).fault =
      some { cause := .memOutOfRange 0xFFFFFFFF#32, step := 1, stage := .memoryAccess } ∧
    (stateOf (step (storeAt 0xFFFFFFFF#32 1))).mem = [] := by decide
/-- L2-W: the multiplexer, and register 0. -/
theorem test_write_back :
    regGet (stateOf (step (inWriteBack true true 0x2C#32 300 4))).regs 4 = 0x2C#32 ∧
    regGet (stateOf (step (inWriteBack false true 0 0xC#32 3))).regs 3 = 0xC#32 ∧
    regGet (stateOf (step (inWriteBack false true 0 1 0))).regs 0 = 1 ∧
    (stateOf (step (inWriteBack true false 9 9 5))).regs = idle.regs := by decide
/-- L2-D, R102: Decode reads the register before the same step's Write-Back. -/
theorem test_decode_reads_before_write_back :
    (stateOf (exec (.add 1 0 2 0) (inWriteBack true true 0x55#32 0 1))).read.de.readData1 = 1 := by decide
/-- L2-D: the control tuples of the handled classes. -/
theorem test_control_nop : (stateOf (exec .nop idle)).read.de = DELatch.zero := by decide
theorem test_control_load :
    (stateOf (exec (.load 0 1 5) idle)).read.de =
      { aluSrc := true, memRead := true, memToReg := true, memWrite := false, regDst := false, regWrite := true,
        aluOp := 0, seOffset := 5, funct := 5, writeRegR := 0, writeRegI := 1, readData1 := 0, readData2 := 1 } := by decide
theorem test_control_store :
    (stateOf (exec (.store 0 2 0xFFFF#16) idle)).read.de =
      { aluSrc := true, memRead := false, memToReg := false, memWrite := true, regDst := false, regWrite := false,
        aluOp := 0, seOffset := 0xFFFFFFFF#32, funct := 0x3F#6, writeRegR := 31, writeRegI := 2, readData1 := 0,
        readData2 := 2 } := by decide
/-- V-F1's word: the fault record. -/
theorem test_unhandled_opcode_faults :
    (stateOf (exec (.unhandledOpcode 0x23#6 0x10000#26) idle)).fault =
      some { cause := .unhandledOpcode 0x8C010000#32, step := 1, stage := .decode } := by decide
/-- V-R1: no DE field is written. -/
theorem test_unhandled_opcode_retains :
    (stateOf (exec (.unhandledOpcode 0x23#6 0) { idleRetain with write.de.seOffset := 5 })).read.de.seOffset = 5 := by decide
/-- V-F5: Decode's fault goes before Memory-Access's. -/
theorem test_fault_priority :
    (stateOf (exec (.unhandledOpcode 0x23#6 0) (loadAt 1024))).fault =
      some { cause := .unhandledOpcode 0x8C000000#32, step := 1, stage := .decode } := by decide
/-- The host's hook: after reset, the very next step decodes and runs the placed word. -/
theorem test_withFetchWord :
    step (State.reset.withFetchWord 32 0x00221820) = exec (.add 1 2 3 0) (State.reset.withFetchWord 32 0x00221820) := rfl

/-! ## Witnesses: for every statement with hypotheses, a state and operands that meet all of them -/

theorem witness_StepRunsDecodedWord :
    ∃ t, idle.input = 0 :: [0, 0, 0, 0] ∧ step idle = .next t ∧ running t := ⟨_, rfl, rfl, rfl⟩

theorem witness_DecodeEncodeRoundTrip :
    (Instr.rfmtUnhandledFunct 31 31 31 31 0x3F#6).wellFormed = true ∧ (Instr.rfmtUnhandledFunct 0 0 0 0 1).wellFormed = true ∧
    (Instr.unhandledOpcode 0x3F#6 0x3FFFFFF#26).wellFormed = true ∧ (Instr.load 31 31 0x8000#16).wellFormed = true := by decide

theorem witness_OperandsAreTheWordsFields :
    decode 0x002218A0#32 = .add 1 2 3 2 ∧ decode 0x00410022#32 = .sub 2 1 0 0 ∧
    decode 0x0022183F#32 = .rfmtUnhandledFunct 1 2 3 0 0x3F#6 ∧
    decode 0x8005FFFF#32 = .load 0 5 0xFFFF#16 ∧ decode 0xA003012C#32 = .store 0 3 300#16 ∧
    decode 0xFFFFFFFF#32 = .unhandledOpcode 0x3F#6 0x3FFFFFF#26 := by decide

theorem witness_ResetSeedsRegisters :
    Config.default.admissible ∧ (31 : RegIdx) ≠ 0 ∧ (1 : RegIdx) ≠ 0 ∧ (31 : RegIdx) ≠ 1 := by decide

theorem witness_ResetFillsMemory : 0 < 1024 ∧ 300 < 1024 ∧ 1023 < 1024 := by decide

theorem witness_ResetClearsLatches : (State.resetWith Config.default).write = LatchSide.zero := rfl

theorem witness_FaultedStateHasNoStep :
    (takeFault (.unhandledFunct 1) idle).fault = some { cause := .unhandledFunct 1, step := 1, stage := .execute } := rfl

theorem witness_ExhaustedStreamHasNoStep : running State.reset ∧ State.reset.input = [] := ⟨rfl, rfl⟩

theorem witness_RunningStateWithWordHasStep : running idle ∧ idle.input = 0 :: [0, 0, 0, 0] := ⟨rfl, rfl⟩

theorem witness_FetchLatchesEveryWord :
    (∃ t, exec .nop { idle with input := 5 :: [0] } = .next t ∧ running t) ∧
    (∃ t, exec .nop { loadAt 1024 with input := 5 :: [0] } = .next t ∧ ¬ running t) :=
  ⟨⟨_, rfl, rfl⟩, ⟨_, rfl, by decide⟩⟩

/-- The hypothesis of the statements that ask for a completed step and nothing more. -/
theorem witness_completed_step :
    ∃ t, completesTo (.add 1 2 3 0) idle t := ⟨_, rfl, rfl⟩
theorem witness_ExecuteCopiesControls : ∃ t, completesTo .nop (offsetInExecute 5 1) t := ⟨_, rfl, rfl⟩
theorem witness_MemoryAccessPassesThrough : ∃ t, completesTo .nop (loadAt 5) t := ⟨_, rfl, rfl⟩
theorem witness_CommitCopiesWriteSides : ∃ t, completesTo (.load 0 1 5) (storeAt 7 8) t := ⟨_, rfl, rfl⟩
theorem witness_SnapshotShowsTheStep : ∃ t, completesTo (.store 0 1 5) (inWriteBack true true 1 2 3) t := ⟨_, rfl, rfl⟩

theorem witness_RegisterFormatResult :
    (∃ t, completesTo .nop (inExecute 0x20#6 0xFFFFFFFF#32 1) t ∧ (inExecute 0x20#6 0xFFFFFFFF#32 1).read.de.aluOp = 0b10#2 ∧
      (inExecute 0x20#6 0xFFFFFFFF#32 1).read.de.aluSrc = false ∧ (inExecute 0x20#6 0xFFFFFFFF#32 1).read.de.funct = 0x20#6) ∧
    (∃ t, completesTo .nop (inExecute 0x22#6 0 1) t ∧ (inExecute 0x22#6 0 1).read.de.aluOp = 0b10#2 ∧
      (inExecute 0x22#6 0 1).read.de.aluSrc = false ∧ (inExecute 0x22#6 0 1).read.de.funct = 0x22#6) :=
  ⟨⟨_, ⟨rfl, rfl⟩, rfl, rfl, rfl⟩, ⟨_, ⟨rfl, rfl⟩, rfl, rfl, rfl⟩⟩

theorem witness_UnhandledFunctKeepsStaleResult :
    ∃ s t, completesTo .nop s t ∧ s.read.de.aluOp = 0b10#2 ∧ s.read.de.aluSrc = false ∧ s.read.de.funct ≠ 0x20#6 ∧
      s.read.de.funct ≠ 0x22#6 :=
  ⟨{ inExecute 0x21#6 1 2 with config.unhandledMode := .retain }, _, ⟨rfl, rfl⟩, rfl, rfl, by decide, by decide⟩

theorem witness_ImmediateBranchAddsOffset :
    (∃ t, exec .nop (offsetInExecute 1023 1) = .next t ∧ running t ∧
      ¬ ((offsetInExecute 1023 1).read.de.aluOp = 0b10#2 ∧ (offsetInExecute 1023 1).read.de.aluSrc = false)) ∧
    (∃ t r, exec .nop (loadAt 1024) = .next t ∧ t.fault = some r ∧
      ¬ ((loadAt 1024).read.de.aluOp = 0b10#2 ∧ (loadAt 1024).read.de.aluSrc = false)) :=
  ⟨⟨_, rfl, rfl, by decide⟩, ⟨_, _, rfl, rfl, by decide⟩⟩

theorem witness_LoadReadsWholeWord : ∃ t, completesTo .nop (loadAt 1023) t ∧ (loadAt 1023).read.em.memRead = true :=
  ⟨_, ⟨rfl, rfl⟩, rfl⟩

theorem witness_StoreChangesOneWord :
    (∃ t, completesTo .nop (storeAt 1023 7) t ∧ Memory.wf (storeAt 1023 7).mem ∧ (storeAt 1023 7).read.em.memRead = false ∧
      (storeAt 1023 7).read.em.memWrite = true) ∧
    (∃ t, completesTo .nop (loadAt 0) t ∧ Memory.wf (loadAt 0).mem ∧ (loadAt 0).read.em.memRead = true) ∧
    (∃ t, completesTo .nop idle t ∧ Memory.wf idle.mem ∧ idle.read.em.memWrite = false) :=
  ⟨⟨_, ⟨rfl, rfl⟩, by decide, rfl, rfl⟩, ⟨_, ⟨rfl, rfl⟩, by decide, rfl⟩, ⟨_, ⟨rfl, rfl⟩, by decide, rfl⟩⟩

theorem witness_WriteBackMultiplexer :
    (∃ t, completesTo .nop (inWriteBack true true 1 2 31) t ∧ (inWriteBack true true 1 2 31).read.mw.regWrite = true) ∧
    (∃ t, completesTo .nop (inWriteBack false false 1 2 31) t ∧ (inWriteBack false false 1 2 31).read.mw.regWrite = false) :=
  ⟨⟨_, ⟨rfl, rfl⟩, rfl⟩, ⟨_, ⟨rfl, rfl⟩, rfl⟩⟩

theorem witness_RegisterZeroIsUnprotected :
    (∃ t u, completesTo .nop (inWriteBack false true 0 9 0) t ∧ (inWriteBack false true 0 9 0).read.mw.regWrite = true ∧
      (inWriteBack false true 0 9 0).read.mw.writeRegNum = 0 ∧ completesTo (.add 0 1 2 0) t u) ∧
    (∃ t, completesTo (.store 1 0 3) (inWriteBack false true 0 9 1) t ∧
      (inWriteBack false true 0 9 1).read.mw.writeRegNum ≠ 0) :=
  ⟨⟨_, _, ⟨rfl, rfl⟩, rfl, rfl, ⟨rfl, rfl⟩⟩, ⟨_, ⟨rfl, rfl⟩, by decide⟩⟩

theorem witness_FaultKeepsPreStepState : ∃ t r, exec (.add 1 2 3 0) (loadAt 1024) = .next t ∧ t.fault = some r :=
  ⟨_, _, rfl, rfl⟩

/-- One state for each case of the priority: Decode's fault with Execute's and Memory-Access's due too, Execute's with
Memory-Access's, Memory-Access's alone, none. -/
theorem witness_FirstFaultInStageOrder :
    ∃ s : State, running s ∧ s.input = 0 :: [0, 0, 0, 0] ∧
      decodeFault (.unhandledOpcode 1 0) s = some (.unhandledOpcode 0x04000000#32) ∧
      executeFault s = some (.unhandledFunct 0x21#6) ∧ memoryFault s = some (.memOutOfRange 1024) ∧
      decodeFault .nop s = none ∧ executeFault idle = none ∧ memoryFault (loadAt 1024) = some (.memOutOfRange 1024) ∧
      executeFault (loadAt 1024) = none ∧ memoryFault idle = none :=
  ⟨{ inExecute 0x21#6 1 2 with read.em := (loadAt 1024).read.em }, rfl, rfl, by decide, by decide, by decide, by decide,
    by decide, by decide, by decide, by decide⟩

/-- Both clauses where they meet: 1023 in range, 1024 and the negative addresses out of range. -/
theorem witness_OutOfRangeAccessFaults :
    (running (loadAt 1023) ∧ (loadAt 1023).input = 0 :: [0, 0, 0, 0] ∧ decodeFault .nop (loadAt 1023) = none ∧
      executeFault (loadAt 1023) = none ∧ (loadAt 1023).read.em.memRead = true ∧
      (loadAt 1023).read.em.aluResult.toNat < 1024) ∧
    (running (storeAt 1024 1) ∧ (storeAt 1024 1).input = 0 :: [0, 0, 0, 0] ∧ decodeFault .nop (storeAt 1024 1) = none ∧
      executeFault (storeAt 1024 1) = none ∧ (storeAt 1024 1).read.em.memWrite = true ∧
      1024 ≤ (storeAt 1024 1).read.em.aluResult.toNat) ∧
    (loadAt 0xFFFFFFFF#32).read.em.aluResult.toInt < 0 ∧ (loadAt 0x80000000#32).read.em.aluResult.toInt < 0 := by decide

theorem witness_ready : ready idle 0 [0, 0, 0, 0] := by decide
theorem witness_ready_busy : ready (loadAt 1023) 0 [0, 0, 0, 0] := by decide

theorem witness_UnhandledOpcodeFaultsInDecode :
    running idle ∧ idle.input = 0 :: [0, 0, 0, 0] ∧ idle.config.unhandledMode = .fault := ⟨rfl, rfl, rfl⟩

theorem witness_UnhandledOpcodeRetainsDecode :
    ready idleRetain 0 [0, 0, 0, 0] ∧ idleRetain.config.unhandledMode = .retain ∧ readFollowsWrite idleRetain := by decide

/-- NopChangesNothing, AddSubChangeOnlyDestination. -/
theorem witness_alone : running idle ∧ drained idle ∧ idle.input = 0 :: 0 :: 0 :: 0 :: [0] := by decide

/-- LoadChangesOnlyDestination and StoreChangesOnlyItsWord: base 1, offset 1022, the last word in range. -/
theorem witness_alone_in_range :
    running idle ∧ drained idle ∧ Memory.wf idle.mem ∧ idle.input = 0 :: 0 :: 0 :: 0 :: [0] ∧
    (regGet idle.regs 1 + (1022#16).signExtend 32).toNat < 1024 := by decide

/-- OutOfRangeInstructionFaults: base 1, offset 1023, the first address out of range; and a negative one. -/
theorem witness_OutOfRangeInstructionFaults :
    running idle ∧ drained idle ∧ idle.input = 0 :: 0 :: 0 :: [0, 0] ∧
    1024 ≤ (regGet idle.regs 1 + (1023#16).signExtend 32).toNat ∧
    1024 ≤ (regGet idle.regs 0 + (0xFFFF#16).signExtend 32).toNat ∧
    (Instr.load 1 2 1023#16 = .load 1 2 1023#16 ∨ Instr.load 1 2 1023#16 = .store 1 2 1023#16) := by decide

theorem witness_UnhandledFunctFaultsInExecute :
    ∃ t1, idle.config.unhandledMode = .fault ∧ (0x21#6 : Code6) ≠ 0x20#6 ∧ (0x21#6 : Code6) ≠ 0x22#6 ∧
      completesTo (.rfmtUnhandledFunct 1 2 3 0 0x21#6) idle t1 ∧ t1.input = 0 :: [0, 0, 0] ∧
      decodeFault (decode t1.read.fd.instr) t1 = none :=
  ⟨_, rfl, by decide, by decide, ⟨rfl, rfl⟩, rfl, by decide⟩

theorem witness_StaleResultIsWrittenBack :
    ∃ t1 t, idleRetain.config.unhandledMode = .retain ∧ (0x21#6 : Code6) ≠ 0x20#6 ∧ (0x21#6 : Code6) ≠ 0x22#6 ∧
      completesTo (.rfmtUnhandledFunct 1 2 3 0 0x21#6) idleRetain t1 ∧ Host.Core.run core 3 t1 = .next t ∧ running t :=
  ⟨_, _, rfl, by decide, by decide, ⟨rfl, rfl⟩, rfl, rfl⟩

theorem witness_AluResultAmongOthers :
    (∃ t1 t, completesTo (.add 1 2 3 0) (loadAt 5) t1 ∧ Host.Core.run core 3 t1 = .next t ∧ running t) ∧
    (∃ t1 t, completesTo (.sub 1 2 3 0) (loadAt 5) t1 ∧ Host.Core.run core 3 t1 = .next t ∧ running t) :=
  ⟨⟨_, _, ⟨rfl, rfl⟩, rfl, rfl⟩, ⟨_, _, ⟨rfl, rfl⟩, rfl, rfl⟩⟩

theorem witness_LoadResultAmongOthers :
    ∃ t1 t2 t, completesTo (.load 1 2 1022#16) (storeAt 1023 9) t1 ∧ step t1 = .next t2 ∧ running t2 ∧
      Host.Core.run core 2 t2 = .next t ∧ running t :=
  ⟨_, _, _, ⟨rfl, rfl⟩, rfl, rfl, rfl, rfl⟩

theorem witness_StoreEffectAmongOthers :
    ∃ t1 t2 t, Memory.wf (storeAt 1023 9).mem ∧ completesTo (.store 1 2 1022#16) (storeAt 1023 9) t1 ∧
      step t1 = .next t2 ∧ running t2 ∧ step t2 = .next t ∧ running t :=
  ⟨_, _, _, by decide, ⟨rfl, rfl⟩, rfl, rfl, rfl, rfl⟩

/-- A LOAD, an ADD and a SUB, each followed by four words that read its destination. -/
theorem witness_HazardDistanceIsFour :
    (∃ t1 t2 t3 t4 t5, drained idle ∧ completesTo (.load 0 1 5) idle t1 ∧ completesTo (.add 1 1 2 0) t1 t2 ∧
      completesTo (.sub 1 1 2 0) t2 t3 ∧ completesTo (.store 0 1 6) t3 t4 ∧ completesTo (.load 0 1 6) t4 t5) ∧
    (∃ t1 t2 t3 t4 t5, completesTo (.add 1 2 3 0) idle t1 ∧ completesTo (.add 3 3 2 0) t1 t2 ∧
      completesTo .nop t2 t3 ∧ completesTo (.sub 3 1 2 0) t3 t4 ∧ completesTo (.rfmtUnhandledFunct 1 3 2 0 1) t4 t5) ∧
    (∃ t1 t2 t3 t4 t5, completesTo (.sub 1 2 0 0) idle t1 ∧ completesTo .nop t1 t2 ∧
      completesTo .nop t2 t3 ∧ completesTo .nop t3 t4 ∧ completesTo .nop t4 t5) :=
  ⟨⟨_, _, _, _, _, by decide, ⟨rfl, rfl⟩, ⟨rfl, rfl⟩, ⟨rfl, rfl⟩, ⟨rfl, rfl⟩, ⟨rfl, rfl⟩⟩,
    ⟨_, _, _, _, _, ⟨rfl, rfl⟩, ⟨rfl, rfl⟩, ⟨rfl, rfl⟩, ⟨rfl, rfl⟩, ⟨rfl, rfl⟩⟩,
    ⟨_, _, _, _, _, ⟨rfl, rfl⟩, ⟨rfl, rfl⟩, ⟨rfl, rfl⟩, ⟨rfl, rfl⟩, ⟨rfl, rfl⟩⟩⟩

theorem witness_LoadSeesStoreJustBefore :
    ∃ t u, Memory.wf (storeAt 1023 9).mem ∧ completesTo .nop (storeAt 1023 9) t ∧ completesTo .nop t u ∧
      (storeAt 1023 9).read.em.memRead = false ∧ (storeAt 1023 9).read.em.memWrite = true ∧ t.read.em.memRead = true ∧
      t.read.em.aluResult = (storeAt 1023 9).read.em.aluResult :=
  ⟨_, _, by decide, ⟨rfl, rfl⟩, ⟨rfl, rfl⟩, rfl, rfl, rfl, by decide⟩

theorem witness_IgnoredBitsReachOnlyTheOffset :
    (∃ t, exec (.add 1 2 3 0) idle = .next t) ∧ (∃ t, exec (.sub 1 2 3 0) idle = .next t) ∧
    (∃ t, exec (.rfmtUnhandledFunct 1 2 3 0 1) idle = .next t) ∧
    differInIgnoredBits (inExecute 0x20#6 1 2) { inExecute 0x20#6 1 2 with read.de.seOffset := 64 } :=
  ⟨⟨_, rfl⟩, ⟨_, rfl⟩, ⟨_, rfl⟩, .inl rfl, .inr ⟨rfl, rfl, rfl⟩, rfl, rfl⟩

/-- With an ADD in Decode behind the no-op, so that the word after the unhandled opcode is a handled one. -/
theorem witness_RetainedOpcodeActsAsNop :
    ∃ u1 u, idleRetain.config.unhandledMode = .retain ∧ readFollowsWrite { idleRetain with input := [0x00221820#32, 0, 0, 0] } ∧
      Memory.wf idleRetain.mem ∧ completesTo .nop { idleRetain with input := [0x00221820#32, 0, 0, 0] } u1 ∧
      rowOf (decode u1.read.fd.instr) ≠ 4 ∧ rowOf (decode u1.read.fd.instr) ≠ 7 ∧
      Host.Core.run core 3 u1 = .next u ∧ running u :=
  ⟨_, _, rfl, rfl, by decide, ⟨rfl, rfl⟩, by decide, by decide, rfl, rfl⟩

theorem witness_StepFrame : ∃ t, Memory.wf (storeAt 1023 9).mem ∧ exec (.add 1 2 3 0) (storeAt 1023 9) = .next t :=
  ⟨_, by decide, rfl⟩

theorem witness_MemoryStaysCanonical : ∃ t, Memory.wf (storeAt 1023 9).mem ∧ step (storeAt 1023 9) = .next t :=
  ⟨_, by decide, rfl⟩

theorem witness_ReadSidesFollowWriteSides : ∃ t, readFollowsWrite idle ∧ step idle = .next t := ⟨_, rfl, rfl⟩

theorem witness_ControlSignalsStayLegal : ∃ t, legalControls (storeAt 1023 9) ∧ step (storeAt 1023 9) = .next t :=
  ⟨_, ⟨by decide, by decide, by decide, by decide, by decide, by decide⟩, rfl⟩

theorem witness_SnapshotsStayLinked : ∃ t, snapshotsLinked idle ∧ step idle = .next t := ⟨_, ⟨rfl, rfl⟩, rfl⟩

theorem witness_FaultRecordStaysTruthful : ∃ t, truthfulFault (loadAt 1024) ∧ step (loadAt 1024) = .next t :=
  ⟨_, trivial, rfl⟩

end Sys2Proof.Tests
end

section
/-! The memory after reset (10_state.md R41). -/

namespace Sys2Proof.Machine

/-- The initial contents in the form of R41: `i mod 256` is below `2 ^ 10`, so its zero extension from 10 bits loses nothing. -/
theorem memInit_eq_zeroExtend (i : Nat) : memInit i = BitVec.zeroExtend 32 (BitVec.ofNat 10 (i % 256)) := by
  have hfits : i % 256 < 1024 := by omega
  apply BitVec.eq_of_toNat_eq
  simp [memInit, Nat.mod_eq_of_lt hfits]

/-- No word has been stored after reset, so every index reads as its initial contents. -/
theorem memGet_resetWith (c : Config) (i : Nat) : memGet (State.resetWith c).mem i = memInit i :=
  memGet_of_all_above _ i (by simp)

/-- Settles O10: every word of the reset memory is its initial contents, which R41 gives as a zero extension. -/
theorem resetFillsMemory : Obligations.ResetFillsMemory := by
  intro c i _
  refine ⟨?_, ?_⟩
  · rw [memGet_resetWith, memInit_eq_zeroExtend]
  · rw [State.reset, memGet_resetWith]
    decide

end Sys2Proof.Machine
end

section
/-! The memory after a completed step (20_memory.md R57). -/

namespace Sys2Proof.Machine

/-- Memory-Access alone decides the memory a completed step leaves, whatever instruction stands in Decode (R51). -/
theorem accessMemory_of_completesTo {i : Instr} {s t : State} (h : completesTo i s t) :
    ∃ v, accessMemory s.read.em s.mem = .ok (t.mem, v) := by
  obtain ⟨-, _, _, _, _, _, v, -, -, -, haccess, rfl⟩ := completes_iff.1 h
  exact ⟨v, haccess⟩

/-- A latch that stores leaves the memory with the addressed word replaced. -/
theorem accessMemory_ok_of_store {e : EMLatch} {m m' : Memory} {v : Word} (h : accessMemory e m = .ok (m', v))
    (hread : e.memRead = false) (hwrite : e.memWrite = true) : m' = memSet m e.aluResult.toNat e.swValue := by
  obtain ⟨hload, -⟩ | ⟨-, -, -, hm, -⟩ | ⟨-, hidle, -⟩ := accessMemory_ok h
  · simp [hread] at hload
  · exact hm
  · simp [hwrite] at hidle

/-- A latch that reads, or that does not write, leaves the memory as it was; a read comes before a write (R121). -/
theorem accessMemory_ok_of_no_store {e : EMLatch} {m m' : Memory} {v : Word} (h : accessMemory e m = .ok (m', v))
    (hno : e.memRead = true ∨ e.memWrite = false) : m' = m := by
  obtain ⟨-, -, hm, -⟩ | ⟨hread, hwrite, -⟩ | ⟨-, -, hm, -⟩ := accessMemory_ok h
  · exact hm
  · simp [hread, hwrite] at hno
  · exact hm

/-- Settles O22: a store replaces one word of a memory with rising indices, so a read gives the stored value at that index
and the old word at every other; the other two cases of Memory-Access return the memory itself. -/
theorem storeChangesOneWord : Obligations.StoreChangesOneWord := by
  rintro i s t hstep ⟨hrising, -⟩
  obtain ⟨v, haccess⟩ := accessMemory_of_completesTo hstep
  refine ⟨fun hread hwrite => ?_, accessMemory_ok_of_no_store haccess⟩
  rw [accessMemory_ok_of_store haccess hread hwrite]
  refine ⟨?_, fun a ha => ?_⟩
  · rw [memGet_memSet _ _ _ _ hrising, if_pos rfl]
  · rw [memGet_memSet _ _ _ _ hrising, if_neg ha]

end Sys2Proof.Machine
end

section
/-! The class test (30_encoding.md R78). -/

namespace Sys2Proof.Machine

/-- Whatever its function, a word that the decoder takes as register-format is of class RFMT; the function is looked at
after R78's test only (R79). -/
theorem instrClass_decodeRfmt (w : Word) : instrClass (decodeRfmt w) = .rfmt := by
  unfold decodeRfmt
  split
  · rfl
  · split
    · rfl
    · rfl

/-- Settles O5: the decoder tests in the order of R78, so the class of its answer is the test with the class of each branch;
the register-format branch has one class for its three rows. -/
theorem decodeFollowsClassTest : Obligations.DecodeFollowsClassTest := by
  intro w
  calc instrClass (decode w)
      = if w = 0x00000000#32 then .nop
        else if fieldOp w = opRfmt then instrClass (decodeRfmt w)
        else if fieldOp w = opLoad then .load
        else if fieldOp w = opStore then .store
        else .unhandled := by simp only [decode, apply_ite instrClass]; rfl
    _ = _ := by rw [instrClass_decodeRfmt]; rfl

end Sys2Proof.Machine
end

section
/-! The sign extension of the offset (30_encoding.md R75). -/

namespace Sys2Proof.Machine

/-- The source's procedure: adding 0xFFFF0000 to a zero-extended half word cannot pass `2 ^ 32`, so on numbers it is the sum. -/
theorem sext32_eq_zeroExtend_add (v : Half) :
    sext32 v = if v.getLsbD 15 = true then v.zeroExtend 32 + 0xFFFF0000#32 else v.zeroExtend 32 := by
  have hv : v.toNat < 2 ^ 16 := v.isLt
  have hmsb : v.msb = v.getLsbD 15 := BitVec.msb_eq_getLsbD_last v
  apply BitVec.eq_of_toNat_eq
  rw [toNat_sext32, hmsb]
  split
  · rw [BitVec.toNat_add, BitVec.toNat_setWidth_of_le (by decide), BitVec.toNat_ofNat]
    omega
  · rw [BitVec.toNat_setWidth_of_le (by decide), Nat.add_zero]

/-- Settles O8: the procedure for every half word; its two test values are closed terms. -/
theorem offsetIsSignExtended : Obligations.OffsetIsSignExtended :=
  ⟨sext32_eq_zeroExtend_add, by decide, by decide⟩

end Sys2Proof.Machine
end

section
/-! What the later stages leave after a completed step, whatever instruction stands in Decode (40_pipeline.md R111 to R133). -/

namespace Sys2Proof.Machine

/-- In every branch Execute chooses no more than the result and the destination. -/
theorem executeLatch_ok_eq_executedLatch {mode : UnhandledMode} {old : Word} {d : DELatch} {e : EMLatch}
    (h : executeLatch mode old d = .ok e) : ∃ result dest, e = executedLatch d result dest := by
  obtain ⟨-, result, -, he⟩ | ⟨-, -, -, he⟩ | ⟨-, he⟩ := executeLatch_ok h
  · exact ⟨result, d.writeRegR, he⟩
  · exact ⟨old, d.writeRegR, he⟩
  · exact ⟨effectiveAddress d.readData1 d.seOffset, d.writeRegI, he⟩

/-- The EM latch after a completed step comes from the DE latch before it. -/
theorem readEM_of_completesTo {i : Instr} {s t : State} (h : completesTo i s t) :
    ∃ result dest, t.read.em = executedLatch s.read.de result dest := by
  obtain ⟨-, _, _, _, _, _, _, -, -, hexecute, -, rfl⟩ := completes_iff.1 h
  exact executeLatch_ok_eq_executedLatch hexecute

/-- The MW latch after a completed step comes from the EM latch before it. -/
theorem readMW_of_completesTo {i : Instr} {s t : State} (h : completesTo i s t) :
    ∃ loaded, t.read.mw = accessedLatch s.read.em loaded := by
  obtain ⟨-, _, _, _, _, _, v, -, -, -, -, rfl⟩ := completes_iff.1 h
  exact ⟨v, rfl⟩

/-- Write-Back alone decides the registers a completed step leaves. -/
theorem regs_of_completesTo {i : Instr} {s t : State} (h : completesTo i s t) :
    t.regs = writeBackRegs s.read.mw s.regs := by
  obtain ⟨-, _, _, _, _, _, _, -, -, -, -, rfl⟩ := completes_iff.1 h
  rfl

/-- After Commit the two sides are alike. -/
theorem read_eq_write_of_completesTo {i : Instr} {s t : State} (h : completesTo i s t) : t.read = t.write := by
  obtain ⟨-, _, _, _, _, _, _, -, -, -, -, rfl⟩ := completes_iff.1 h
  rfl

/-- Decode does not look at the MW latch. -/
theorem decodedDE_with_readMW (d : DecodeAction) (s : State) (mw : MWLatch) :
    decodedDE d { s with read.mw := mw } = decodedDE d s := by cases d <;> rfl

/-- No stage that can fault looks at the MW latch, so a step that completes does so whatever stands in it. -/
theorem completesTo_with_readMW {i : Instr} {s t : State} (h : completesTo i s t) (mw : MWLatch) :
    ∃ u, completesTo i { s with read.mw := mw } u := by
  obtain ⟨hrun, w, rest, de, em, m, v, hinput, hdecode, hexecute, haccess, -⟩ := completes_iff.1 h
  have hdecode' : decodedDE (actionOf i) { s with read.mw := mw } = .ok de := by
    rw [decodedDE_with_readMW, hdecode]
  exact ⟨_, completes_iff.2 ⟨hrun, w, rest, de, em, m, v, hinput, hdecode', hexecute, haccess, rfl⟩⟩

/-- Settles O17: the result and the destination are all that Execute chooses, and the other five fields are copies. -/
theorem executeCopiesControls : Obligations.ExecuteCopiesControls := by
  intro i s t hstep
  obtain ⟨result, dest, hem⟩ := readEM_of_completesTo hstep
  rw [hem]
  exact ⟨rfl, rfl, rfl, rfl, rfl⟩

/-- Settles O23: whichever case of Memory-Access is taken, it chooses the loaded value only. -/
theorem memoryAccessPassesThrough : Obligations.MemoryAccessPassesThrough := by
  intro i s t hstep
  obtain ⟨loaded, hmw⟩ := readMW_of_completesTo hstep
  rw [hmw]
  exact ⟨rfl, rfl, rfl, rfl⟩

/-- Settles O24: the new registers are Write-Back's, read at the destination and at any other index; that Write-Back cannot
fault is `completesTo_with_readMW`. -/
theorem writeBackMultiplexer : Obligations.WriteBackMultiplexer := by
  intro i s t hstep
  refine ⟨fun hoff => ?_, fun hon => ⟨?_, fun q hq => ?_⟩, completesTo_with_readMW hstep⟩
  · rw [regs_of_completesTo hstep, writeBackRegs_of_not _ _ hoff]
  · rw [regs_of_completesTo hstep, regGet_writeBackRegs, if_pos ⟨hon, rfl⟩, writeBackValue]
  · rw [regs_of_completesTo hstep, regGet_writeBackRegs, if_neg fun hboth => hq hboth.2]

/-- Settles O27: the snapshot is taken between Write-Back and Commit, and Commit changes neither the write sides nor the
registers. -/
theorem snapshotShowsTheStep : Obligations.SnapshotShowsTheStep := by
  intro i s t hstep
  obtain ⟨-, _, _, _, _, _, _, -, -, -, -, rfl⟩ := completes_iff.1 hstep
  rfl

/-- Settles O26: the step's own snapshot (O27) shows the write sides before Commit, which are those after it and, copied,
the read sides. -/
theorem commitCopiesWriteSides : Obligations.CommitCopiesWriteSides := by
  intro i s t hstep
  refine ⟨_, snapshotShowsTheStep i s t hstep, ?_⟩
  rw [read_eq_write_of_completesTo hstep]
  exact ⟨rfl, rfl, rfl, rfl, rfl⟩

end Sys2Proof.Machine
end

section
/-! The round trips between words and instructions (30_encoding.md sections 1 and 3). -/

namespace Sys2Proof

/-! ## The decoder, one equation per class of R78 -/

/-- A word whose opcode is not 0 is not all zero. -/
theorem ne_zero_of_fieldOp_ne {w : Word} (hop : fieldOp w ≠ opRfmt) : w ≠ 0#32 := by
  rintro rfl
  exact hop (by decide)

theorem decode_of_rfmt {w : Word} (hw : w ≠ 0#32) (hop : fieldOp w = opRfmt) : decode w = decodeRfmt w := by
  rw [decode, if_neg hw, if_pos hop]

theorem decode_of_load {w : Word} (hop : fieldOp w = opLoad) :
    decode w = .load (fieldRs w) (fieldRt w) (fieldImm16 w) := by
  have hrfmt : fieldOp w ≠ opRfmt := by rw [hop]; decide
  rw [decode, if_neg (ne_zero_of_fieldOp_ne hrfmt), if_neg hrfmt, if_pos hop]

theorem decode_of_store {w : Word} (hop : fieldOp w = opStore) :
    decode w = .store (fieldRs w) (fieldRt w) (fieldImm16 w) := by
  have hrfmt : fieldOp w ≠ opRfmt := by rw [hop]; decide
  rw [decode, if_neg (ne_zero_of_fieldOp_ne hrfmt), if_neg hrfmt, if_neg (by rw [hop]; decide), if_pos hop]

theorem decode_of_unhandled {w : Word} (hrfmt : fieldOp w ≠ opRfmt) (hload : fieldOp w ≠ opLoad)
    (hstore : fieldOp w ≠ opStore) : decode w = .unhandledOpcode (fieldOp w) (fieldRest w) := by
  rw [decode, if_neg (ne_zero_of_fieldOp_ne hrfmt), if_neg hrfmt, if_neg hload, if_neg hstore]

/-! ## From an instruction to its word and back -/

/-- A register-format word is all zero only if each of its fields is. -/
theorem fields_eq_zero_of_packWord_eq_zero {rs rt rd : RegIdx} {x : BitVec 5} {funct : Code6}
    (h : packWord opRfmt rs rt (lowRfmt rd x funct) = 0#32) : rs = 0 ∧ rt = 0 ∧ rd = 0 ∧ x = 0 ∧ funct = 0 := by
  have hfield {n : Nat} (field : Word → BitVec n) := congrArg field h
  refine ⟨?_, ?_, ?_, ?_, ?_⟩
  · simpa using (hfield fieldRs).trans (by decide : fieldRs 0#32 = 0)
  · simpa using (hfield fieldRt).trans (by decide : fieldRt 0#32 = 0)
  · simpa using (hfield fieldRd).trans (by decide : fieldRd 0#32 = 0)
  · simpa using (hfield fieldIgnored).trans (by decide : fieldIgnored 0#32 = 0)
  · simpa using (hfield fieldFunct).trans (by decide : fieldFunct 0#32 = 0)

/-- A packed register-format word with a field that is not zero is told apart by its function alone. -/
theorem decode_packWord_rfmt {rs rt rd : RegIdx} {x : BitVec 5} {funct : Code6}
    (h : ¬ (rs = 0 ∧ rt = 0 ∧ rd = 0 ∧ x = 0 ∧ funct = 0)) :
    decode (packWord opRfmt rs rt (lowRfmt rd x funct)) =
      if funct = functAdd then .add rs rt rd x
      else if funct = functSub then .sub rs rt rd x
      else .rfmtUnhandledFunct rs rt rd x funct := by
  rw [decode_of_rfmt (fun hw => h (fields_eq_zero_of_packWord_eq_zero hw)) (fieldOp_packWord ..), decodeRfmt]
  simp only [fieldFunct_packWord, fieldRs_packWord, fieldRt_packWord, fieldRd_packWord, fieldIgnored_packWord]

theorem wellFormed_rfmtUnhandledFunct_iff {rs rt rd : RegIdx} {x : BitVec 5} {funct : Code6} :
    (Instr.rfmtUnhandledFunct rs rt rd x funct).wellFormed = true ↔
      funct ≠ functAdd ∧ funct ≠ functSub ∧ ¬ (rs = 0 ∧ rt = 0 ∧ rd = 0 ∧ x = 0 ∧ funct = 0) := by
  simp [Instr.wellFormed, and_assoc]
  tauto

theorem wellFormed_unhandledOpcode_iff {op : Code6} {rest : BitVec 26} :
    (Instr.unhandledOpcode op rest).wellFormed = true ↔ op ≠ opRfmt ∧ op ≠ opLoad ∧ op ≠ opStore := by
  simp [Instr.wellFormed, and_assoc]

/-- Settles O3, by one case per row: the fields read back from the packed word are the instruction's, and well-formedness
keeps a catch-all row's word out of the rows before it. -/
theorem decodeEncodeRoundTrip : Obligations.DecodeEncodeRoundTrip := by
  intro i hwf
  cases i with
  | nop => decide
  | add rs rt rd x =>
    rw [encode, decode_packWord_rfmt (fun ⟨_, _, _, _, hfunct⟩ => absurd hfunct (by decide)), if_pos rfl]
  | sub rs rt rd x =>
    rw [encode, decode_packWord_rfmt (fun ⟨_, _, _, _, hfunct⟩ => absurd hfunct (by decide)), if_neg (by decide), if_pos rfl]
  | rfmtUnhandledFunct rs rt rd x funct =>
    obtain ⟨hadd, hsub, hzero⟩ := wellFormed_rfmtUnhandledFunct_iff.1 hwf
    rw [encode, decode_packWord_rfmt hzero, if_neg hadd, if_neg hsub]
  | load rs rt imm => rw [encode, decode_of_load (fieldOp_packWord ..)]; simp
  | store rs rt imm => rw [encode, decode_of_store (fieldOp_packWord ..)]; simp
  | unhandledOpcode op rest =>
    obtain ⟨hrfmt, hload, hstore⟩ := wellFormed_unhandledOpcode_iff.1 hwf
    rw [encode, decode_of_unhandled (by rwa [fieldOp_packOpcode]) (by rwa [fieldOp_packOpcode])
      (by rwa [fieldOp_packOpcode]), fieldOp_packOpcode, fieldRest_packOpcode]

/-! ## From a word to its instruction and back -/

/-- A word is its opcode, its two register fields and its low half. -/
theorem packWord_fields (w : Word) : packWord (fieldOp w) (fieldRs w) (fieldRt w) (fieldImm16 w) = w := by
  apply BitVec.eq_of_toNat_eq
  rw [toNat_packWord, fieldOp, fieldRs, fieldRt, fieldImm16, toNat_field, toNat_field, toNat_field, toNat_field]
  omega

/-- A word is its opcode and its other 26 bits. -/
theorem packOpcode_fields (w : Word) : packOpcode (fieldOp w) (fieldRest w) = w := by
  apply BitVec.eq_of_toNat_eq
  rw [toNat_packOpcode, fieldOp, fieldRest, toNat_field, toNat_field]
  omega

/-- A word of opcode 0 is packed from the fields the decoder takes. -/
theorem packWord_rfmt_fields {w : Word} (hop : fieldOp w = opRfmt) :
    packWord opRfmt (fieldRs w) (fieldRt w) (lowRfmt (fieldRd w) (fieldIgnored w) (fieldFunct w)) = w := by
  rw [Machine.lowRfmt_fields, ← hop, packWord_fields]

/-- The fields of a word of opcode 0 that is not all zero are not all zero. -/
theorem fields_ne_zero_of_ne_zero {w : Word} (hw : w ≠ 0#32) (hop : fieldOp w = opRfmt) :
    ¬ (fieldRs w = 0 ∧ fieldRt w = 0 ∧ fieldRd w = 0 ∧ fieldIgnored w = 0 ∧ fieldFunct w = 0) := by
  rintro ⟨hrs, hrt, hrd, hx, hfunct⟩
  apply hw
  rw [← packWord_rfmt_fields hop, hrs, hrt, hrd, hx, hfunct]
  decide

/-- The decoder answers well-formed instructions only. -/
theorem wellFormed_decode (w : Word) : (decode w).wellFormed = true := by
  obtain ⟨-, h⟩ | ⟨-, -, -, h⟩ | ⟨-, -, -, h⟩ | ⟨hw, hop, hadd, hsub, h⟩ | ⟨-, h⟩ | ⟨-, h⟩ | ⟨hrfmt, hload, hstore, h⟩ :=
    decode_cases w <;> rw [h]
  · rfl
  · rfl
  · rfl
  · exact wellFormed_rfmtUnhandledFunct_iff.2 ⟨hadd, hsub, fields_ne_zero_of_ne_zero hw hop⟩
  · rfl
  · rfl
  · exact wellFormed_unhandledOpcode_iff.2 ⟨hrfmt, hload, hstore⟩

/-- The word of the instruction a word decodes to is that word. -/
theorem encode_decode (w : Word) : encode (decode w) = w := by
  obtain ⟨hw, h⟩ | ⟨-, hop, hfunct, h⟩ | ⟨-, hop, hfunct, h⟩ | ⟨-, hop, -, -, h⟩ | ⟨hop, h⟩ | ⟨hop, h⟩ | ⟨-, -, -, h⟩ :=
    decode_cases w <;> rw [h, encode]
  · exact hw.symm
  · rw [← hfunct, packWord_rfmt_fields hop]
  · rw [← hfunct, packWord_rfmt_fields hop]
  · exact packWord_rfmt_fields hop
  · rw [← hop, packWord_fields]
  · rw [← hop, packWord_fields]
  · exact packOpcode_fields w

/-- Settles O4: the two lemmas above, for every word. -/
theorem encodeDecodeRoundTrip : Obligations.EncodeDecodeRoundTrip :=
  fun w => ⟨wellFormed_decode w, encode_decode w⟩

/-! ## The operands as fields of the word's number -/

/-- A word that decodes to `i` is the word of `i`. -/
theorem eq_encode_of_decode_eq {w : Word} {i : Instr} (h : decode w = i) : w = encode i := by
  rw [← h, encode_decode]

/-- The places of the fields in a register-format word (R72). -/
theorem fields_of_packWord_lowRfmt {w : Word} {rs rt rd : RegIdx} {x : BitVec 5} {f : Code6}
    (h : w = packWord opRfmt rs rt (lowRfmt rd x f)) :
    rs.toNat = w.toNat / 2 ^ 21 % 32 ∧ rt.toNat = w.toNat / 2 ^ 16 % 32 ∧ rd.toNat = w.toNat / 2 ^ 11 % 32 ∧
      x.toNat = w.toNat / 2 ^ 6 % 32 ∧ f.toNat = w.toNat % 64 ∧ w.toNat / 2 ^ 26 = 0 := by
  have hop : opRfmt.toNat = 0 := rfl
  rw [h, toNat_packWord, toNat_lowRfmt, hop]
  omega

/-- The places of the fields in a memory-format word (R73). -/
theorem fields_of_packWord {w : Word} {op : Code6} {rs rt : RegIdx} {imm : Half} (h : w = packWord op rs rt imm) :
    w.toNat / 2 ^ 26 = op.toNat ∧ rs.toNat = w.toNat / 2 ^ 21 % 32 ∧ rt.toNat = w.toNat / 2 ^ 16 % 32 ∧
      imm.toNat = w.toNat % 65536 := by
  rw [h, toNat_packWord]
  omega

/-- Settles O6: the word is the decoded instruction's own (O4), and a packed word's number is a sum with one term for each
field. -/
theorem operandsAreTheWordsFields : Obligations.OperandsAreTheWordsFields := by
  intro w
  refine ⟨?_, ?_, ?_, ?_, ?_⟩
  · rintro rs rt rd x f (⟨h, rfl⟩ | ⟨h, rfl⟩ | h) <;> exact fields_of_packWord_lowRfmt (eq_encode_of_decode_eq h)
  · intro rs rt imm h
    exact (fields_of_packWord (eq_encode_of_decode_eq h)).1
  · intro rs rt imm h
    exact (fields_of_packWord (eq_encode_of_decode_eq h)).1
  · rintro rs rt imm (h | h) <;> exact (fields_of_packWord (eq_encode_of_decode_eq h)).2
  · intro op rest h
    rw [eq_encode_of_decode_eq h, encode, toNat_packOpcode]
    omega

/-! ## The rows of the opcode table -/

/-- The opcode mask fits a word exactly when the word has the row's opcode. -/
theorem and_opcodeMask_eq_iff (w : Word) (op : Code6) : w &&& 0xFC000000#32 = packWord op 0 0 0 ↔ fieldOp w = op := by
  have hmask : w &&& 0xFC000000#32 = packWord (fieldOp w) 0 0 0 := by
    conv_lhs => rw [← packWord_fields w]
    exact Laws.EncodeFixedBits.packWord_and_opcodeMask ..
  rw [hmask]
  refine ⟨fun h => ?_, fun h => by rw [h]⟩
  simpa using congrArg fieldOp h

/-- The mask of ADD's and SUB's rows fits a word exactly when the word has the row's opcode and function. -/
theorem and_functMask_eq_iff (w : Word) (op funct : Code6) :
    w &&& 0xFC00003F#32 = packWord op 0 0 (lowRfmt 0 0 funct) ↔ fieldOp w = op ∧ fieldFunct w = funct := by
  have hmask : w &&& 0xFC00003F#32 = packWord (fieldOp w) 0 0 (lowRfmt 0 0 (fieldFunct w)) := by
    conv_lhs => rw [← packWord_fields w, ← Machine.lowRfmt_fields]
    exact Laws.EncodeFixedBits.packWord_and_functMask ..
  rw [hmask]
  refine ⟨fun h => ⟨?_, ?_⟩, fun ⟨hop, hfunct⟩ => by rw [hop, hfunct]⟩
  · simpa using congrArg fieldOp h
  · simpa using congrArg fieldFunct h

/-- Each row's mask and match as a test on the word's fields. -/
theorem firstRow_eq (w : Word) :
    Machine.firstRow w =
      if w = 0#32 then some 1
      else if fieldOp w = opRfmt ∧ fieldFunct w = functAdd then some 2
      else if fieldOp w = opRfmt ∧ fieldFunct w = functSub then some 3
      else if fieldOp w = opRfmt then some 4
      else if fieldOp w = opLoad then some 5
      else if fieldOp w = opStore then some 6
      else some 7 := by
  have hzero : (w &&& 0xFFFFFFFF#32 == 0#32) = decide (w = 0#32) := by
    rw [show (0xFFFFFFFF#32 : Word) = BitVec.allOnes 32 from rfl, BitVec.and_allOnes]; rfl
  have hfunct (m : Word) (f : Code6) (hm : m = packWord opRfmt 0 0 (lowRfmt 0 0 f)) :
      (w &&& 0xFC00003F#32 == m) = decide (fieldOp w = opRfmt ∧ fieldFunct w = f) := by
    rw [hm, beq_eq_decide, decide_eq_decide, and_functMask_eq_iff]
  have hop (m : Word) (op : Code6) (hm : m = packWord op 0 0 0) :
      (w &&& 0xFC000000#32 == m) = decide (fieldOp w = op) := by
    rw [hm, beq_eq_decide, decide_eq_decide, and_opcodeMask_eq_iff]
  have hlast : (w &&& 0#32 == 0#32) = true := by simp
  simp only [Machine.firstRow, Machine.tableRows, List.find?, hzero, hfunct 0x20#32 functAdd rfl,
    hfunct 0x22#32 functSub rfl, hop 0#32 opRfmt rfl, hop 0x80000000#32 opLoad rfl, hop 0xA0000000#32 opStore rfl, hlast]
  split_ifs <;> simp_all

/-- Settles O7: the rows' tests are the decoder's own, in the decoder's order. -/
theorem decoderTakesFirstMatchingRow : Obligations.DecoderTakesFirstMatchingRow := by
  intro w
  rw [firstRow_eq]
  obtain ⟨hw, h⟩ | ⟨hw, hop, hfunct, h⟩ | ⟨hw, hop, hfunct, h⟩ | ⟨hw, hop, hadd, hsub, h⟩ | ⟨hop, h⟩ | ⟨hop, h⟩ |
    ⟨hrfmt, hload, hstore, h⟩ := decode_cases w <;> rw [h]
  · rw [if_pos hw]; rfl
  · simp [hw, hop, hfunct, Machine.rowOf]
  · simp [hw, hop, hfunct, Machine.rowOf, functAdd, functSub]
  · simp [hw, hop, hadd, hsub, Machine.rowOf]
  · have hw : w ≠ 0#32 := ne_zero_of_fieldOp_ne (by rw [hop]; decide)
    simp [hw, hop, Machine.rowOf, opRfmt, opLoad]
  · have hw : w ≠ 0#32 := ne_zero_of_fieldOp_ne (by rw [hop]; decide)
    simp [hw, hop, Machine.rowOf, opRfmt, opLoad, opStore]
  · have hw : w ≠ 0#32 := ne_zero_of_fieldOp_ne hrfmt
    simp [hw, hrfmt, hload, hstore, Machine.rowOf]

/-- Settles O2: fifteen closed terms, evaluated. -/
theorem sampleWordsDecode : Obligations.SampleWordsDecode := by
  unfold Obligations.SampleWordsDecode
  decide

end Sys2Proof
end

section
/-! What a step answers, in the terms of Safety: the first fault due in stage order, or a completed step with every field of
its end state (40_pipeline.md R128, 60_exceptions.md R204). -/

namespace Sys2Proof.Machine

/-! ## The fault that is due -/

/-- The first fault due, in the order Decode, Execute, Memory-Access, when `i` stands in Decode (R204). -/
def dueFault (i : Instr) (s : State) : Option FaultCause :=
  (decodeFault i s).or ((executeFault s).or (memoryFault s))

/-- A stage that answers raised none of its faults. -/
theorem fault_none_of_ok {α : Type} {answer : Except FaultCause α} {due : Option FaultCause}
    (hiff : ∀ c, answer = .error c ↔ due = some c) {a : α} (hok : answer = .ok a) : due = none := by
  cases hdue : due with
  | none => rfl
  | some c => rw [(hiff c).2 hdue] at hok; cases hok

theorem decodedDE_ok_of {i : Instr} {s : State} (h : decodeFault i s = none) :
    ∃ de, decodedDE (actionOf i) s = .ok de := by
  cases hd : decodedDE (actionOf i) s with
  | ok de => exact ⟨de, rfl⟩
  | error c => rw [(decodedDE_eq_error_iff i s c).1 hd] at h; cases h

theorem dueFault_eq_none_iff {i : Instr} {s : State} :
    dueFault i s = none ↔ decodeFault i s = none ∧ executeFault s = none ∧ memoryFault s = none := by
  simp [dueFault]

/-- A running machine with a word raises the first fault due. -/
theorem exec_of_dueFault {i : Instr} {s : State} {w : Word} {rest : List Word} {c : FaultCause} (hrun : running s)
    (hinput : s.input = w :: rest) (hdue : dueFault i s = some c) :
    exec i s = .next (takeFault c { s with input := rest }) := by
  rw [exec_eq, clockStep_eq _ s w rest hrun hinput]
  cases hdecode : decodedDE (actionOf i) s with
  | error c' =>
    rw [dueFault, (decodedDE_eq_error_iff i s c').1 hdecode] at hdue
    cases hdue; rfl
  | ok de =>
    rw [dueFault, fault_none_of_ok (decodedDE_eq_error_iff i s) hdecode, Option.none_or] at hdue
    cases hexecute : executeLatch s.config.unhandledMode s.write.em.aluResult s.read.de with
    | error c' =>
      rw [(executeLatch_eq_error_iff s c').1 hexecute] at hdue
      cases hdue; rfl
    | ok em =>
      rw [fault_none_of_ok (executeLatch_eq_error_iff s) hexecute, Option.none_or] at hdue
      rw [(accessMemory_eq_error_iff s c).2 hdue]

/-- A running machine with a word and no fault due completes its step. -/
theorem completes_of_no_dueFault {i : Instr} {s : State} {w : Word} {rest : List Word} (hrun : running s)
    (hinput : s.input = w :: rest) (hdue : dueFault i s = none) : ∃ t, completesTo i s t := by
  obtain ⟨hd, he, hm⟩ := dueFault_eq_none_iff.1 hdue
  obtain ⟨de, hd⟩ := decodedDE_ok_of hd
  obtain ⟨t, ht, -⟩ := completes_of_ready (w := w) (rest := rest) ⟨hrun, hinput, he, hm⟩ hd
  exact ⟨t, ht⟩

/-- A step's answer is the due fault's state or a completed step. -/
theorem exec_next_cases_due {i : Instr} {s t : State} (h : exec i s = .next t) :
    running s ∧ ∃ w rest, s.input = w :: rest ∧
      ((∃ c, dueFault i s = some c ∧ t = takeFault c { s with input := rest }) ∨ completesTo i s t) := by
  obtain ⟨hrun, w, rest, hinput, -⟩ := exec_next_cases h
  refine ⟨hrun, w, rest, hinput, ?_⟩
  cases hdue : dueFault i s with
  | some c =>
    rw [exec_of_dueFault hrun hinput hdue] at h
    cases h
    exact .inl ⟨c, rfl, rfl⟩
  | none =>
    obtain ⟨u, hu, hurun⟩ := completes_of_no_dueFault hrun hinput hdue
    rw [h] at hu
    cases hu
    exact .inr ⟨h, hurun⟩

/-! ## What each fault says -/

theorem decodeFault_eq_some {i : Instr} {s : State} {c : FaultCause} (h : decodeFault i s = some c) :
    ∃ op rest, i = .unhandledOpcode op rest ∧ s.config.unhandledMode = .fault ∧
      c = .unhandledOpcode (packOpcode op rest) := by
  cases i <;> simp only [decodeFault, reduceCtorEq] at h
  case unhandledOpcode op rest =>
    split at h <;> cases h
    exact ⟨op, rest, rfl, ‹_›, rfl⟩

theorem executeFault_eq_some {s : State} {c : FaultCause} (h : executeFault s = some c) :
    (s.read.de.aluOp = 0b10#2 ∧ s.read.de.aluSrc = false ∧ s.read.de.funct ≠ 0x20#6 ∧ s.read.de.funct ≠ 0x22#6 ∧
      s.config.unhandledMode = .fault) ∧ c = .unhandledFunct s.read.de.funct := by
  unfold executeFault at h
  split at h <;> cases h
  exact ⟨‹_›, rfl⟩

theorem memoryFault_eq_some {s : State} {c : FaultCause} (h : memoryFault s = some c) :
    ((s.read.em.memRead = true ∨ s.read.em.memWrite = true) ∧ 1024 ≤ s.read.em.aluResult.toNat) ∧
      c = .memOutOfRange s.read.em.aluResult := by
  unfold memoryFault at h
  split at h <;> cases h
  exact ⟨‹_›, rfl⟩

/-- The due fault is one stage's. -/
theorem dueFault_eq_some {i : Instr} {s : State} {c : FaultCause} (h : dueFault i s = some c) :
    decodeFault i s = some c ∨ executeFault s = some c ∨ memoryFault s = some c := by
  simp only [dueFault, Option.or_eq_some_iff] at h
  tauto

/-! ## The end state of a completed step, field by field -/

section
variable {i : Instr} {s t : State} (h : completesTo i s t)
include h

/-- DE is what Decode answered. -/
theorem decodedDE_of_completesTo : decodedDE (actionOf i) s = .ok t.read.de := by
  obtain ⟨-, _, _, _, _, _, _, -, hdecode, -, -, rfl⟩ := completes_iff.1 h
  exact hdecode

/-- EM is what Execute answered. -/
theorem executeLatch_of_completesTo :
    executeLatch s.config.unhandledMode s.write.em.aluResult s.read.de = .ok t.read.em := by
  obtain ⟨-, _, _, _, _, _, _, -, -, hexecute, -, rfl⟩ := completes_iff.1 h
  exact hexecute

/-- Memory and the loaded value are what Memory-Access answered. -/
theorem accessMemory_lwData_of_completesTo : accessMemory s.read.em s.mem = .ok (t.mem, t.read.mw.lwData) := by
  obtain ⟨-, _, _, _, _, _, _, -, -, -, haccess, rfl⟩ := completes_iff.1 h
  exact haccess

theorem readMW_eq_of_completesTo : t.read.mw = accessedLatch s.read.em t.read.mw.lwData := by
  obtain ⟨-, _, _, _, _, _, _, -, -, -, -, rfl⟩ := completes_iff.1 h
  rfl

theorem config_of_completesTo : t.config = s.config := by
  obtain ⟨-, _, _, _, _, _, _, -, -, -, -, rfl⟩ := completes_iff.1 h
  rfl

theorem steps_of_completesTo : t.steps = s.steps + 1 := by
  obtain ⟨-, _, _, _, _, _, _, -, -, -, -, rfl⟩ := completes_iff.1 h
  rfl

/-- The first word of the queue is latched and taken out of it. -/
theorem input_of_completesTo : s.input = t.read.fd.instr :: t.input := by
  obtain ⟨-, _, _, _, _, _, _, hinput, -, -, -, rfl⟩ := completes_iff.1 h
  exact hinput

end

end Sys2Proof.Machine
end

section
/-! The state after reset, and where there is a step (10_state.md section 6; 40_pipeline.md sections 1, 7 and 8). -/

namespace Sys2Proof.Machine

/-! ## Reset -/

theorem regGet_resetWith_zero (c : Config) : regGet (State.resetWith c).regs 0 = 0 := by
  simp [regGet]

theorem regGet_resetWith {r : RegIdx} (c : Config) (hr : r ≠ 0) :
    regGet (State.resetWith c).regs r = c.regSeed[r.toNat]'r.isLt := by
  have hindex : 0 ≠ r.toNat := fun h => hr (BitVec.eq_of_toNat_eq h.symm)
  rw [regGet, resetWith_regs, Vector.getElem_set_ne _ _ hindex]

/-- Settles O9: register 0 is set to 0 and every other slot keeps the seed, so R40's constraints on the seeds carry over. -/
theorem resetSeedsRegisters : Obligations.ResetSeedsRegisters := by
  refine ⟨fun c hadm => ?_, fun s => ⟨hostReset_hostReset s, rfl⟩, by decide, rfl⟩
  obtain ⟨hnonzero, hdistinct⟩ := hadm
  have hindex {r : RegIdx} (hr : r ≠ 0) : r.toFin ≠ 0 := fun h => hr (BitVec.eq_of_toFin_eq h)
  refine ⟨regGet_resetWith_zero c, fun r hr => regGet_resetWith c hr, fun r hr => ?_, fun r q hr hq hrq => ?_⟩
  · rw [regGet_resetWith c hr]
    exact hnonzero r.toFin (hindex hr)
  · rw [regGet_resetWith c hr, regGet_resetWith c hq]
    exact hdistinct r.toFin q.toFin (hindex hr) (hindex hq) fun h => hrq (BitVec.eq_of_toFin_eq h)

/-- Settles O11: both sides are the all-zero latches of R42. -/
theorem resetClearsLatches : Obligations.ResetClearsLatches := by
  rintro c l (rfl | rfl)
  · exact ⟨rfl, rfl, rfl, rfl, rfl⟩
  · exact ⟨rfl, rfl, rfl, rfl, rfl⟩

/-- Settles O12: memory lists no word, the zero latches hold the NOP row, and no snapshot and no fault is recorded. -/
theorem resetMeetsInvariants : Obligations.ResetMeetsInvariants := by
  intro c
  have hDE : legalDE .zero := by decide
  have hEM : legalEM .zero := by decide
  have hMW : legalMW .zero := by decide
  exact ⟨⟨.nil, by simp⟩, rfl, ⟨hDE, hDE, hEM, hEM, hMW, hMW⟩, ⟨rfl, rfl⟩, trivial⟩

/-! ## Where there is a step -/

/-- Settles O13: a step looks at the fault record before anything else, whatever instruction stands in Decode. -/
theorem faultedStateHasNoStep : Obligations.FaultedStateHasNoStep :=
  fun i s r h => ⟨exec_of_faulted i s r h, exec_of_faulted _ s r h⟩

/-- Settles O14: and at the queue next. -/
theorem exhaustedStreamHasNoStep : Obligations.ExhaustedStreamHasNoStep :=
  fun i s hrun hinput => ⟨exec_of_noWord i s hrun hinput, exec_of_noWord _ s hrun hinput⟩

/-- Settles O15: either a fault is due and is the step's answer, or none is and the step completes. -/
theorem runningStateWithWordHasStep : Obligations.RunningStateWithWordHasStep := by
  intro i s w rest hrun hinput
  cases hdue : dueFault i s with
  | some c => exact ⟨_, exec_of_dueFault hrun hinput hdue, rfl⟩
  | none =>
    obtain ⟨t, ht⟩ := completes_of_no_dueFault hrun hinput hdue
    have hqueue := input_of_completesTo ht
    rw [hinput] at hqueue
    cases hqueue
    exact ⟨t, ht.1, rfl⟩

/-- Settles O1: `step` is `exec` of the decoded word by definition, and a completed step latches the first word supplied. -/
theorem stepRunsDecodedWord : Obligations.StepRunsDecodedWord := by
  refine fun s => ⟨rfl, wellFormed_decode _, fun w rest t hinput hstep hrun => ?_⟩
  have hqueue := input_of_completesTo ⟨hstep, hrun⟩
  rw [hinput] at hqueue
  obtain ⟨hword, hrest⟩ := List.cons.inj hqueue
  exact ⟨hword.symm, hrest.symm⟩

end Sys2Proof.Machine
end

section
/-! The invariants that every step keeps, whatever instruction stands in Decode; a faulting step keeps the fields they speak
of. -/

namespace Sys2Proof.Machine

/-! ## Memory in canonical form -/

theorem mem_wf_of_completesTo {i : Instr} {s t : State} (h : completesTo i s t) (hwf : Memory.wf s.mem) :
    Memory.wf t.mem :=
  accessMemory_wf (accessMemory_lwData_of_completesTo h) hwf

/-- Settles O53: a fault leaves memory, and a completed step's memory is Memory-Access's, which keeps the form. -/
theorem memoryStaysCanonical : Obligations.MemoryStaysCanonical := by
  intro s t hwf hstep
  obtain ⟨-, w, rest, -, ⟨c, -, rfl⟩ | hcomplete⟩ := exec_next_cases_due hstep
  · exact hwf
  · exact mem_wf_of_completesTo hcomplete hwf

/-! ## The two sides of the latches -/

/-- Settles O54: Commit makes the sides alike, and a fault leaves both. -/
theorem readSidesFollowWriteSides : Obligations.ReadSidesFollowWriteSides := by
  intro s t hsides hstep
  obtain ⟨-, w, rest, -, ⟨c, -, rfl⟩ | hcomplete⟩ := exec_next_cases_due hstep
  · exact hsides
  · exact read_eq_write_of_completesTo hcomplete

/-! ## The control signals -/

/-- Decode gives every handled instruction one of the four rows. -/
theorem row_of_actionOf {i : Instr} {row : ControlRow} {rs rt : RegIdx} {low : Half}
    (h : actionOf i = .latch row rs rt low) : row ∈ [rowNop, rowRfmt, rowLoad, rowStore] := by
  cases i <;> cases h <;> simp

theorem legalDE_decodedLatch {row : ControlRow} (hrow : row ∈ [rowNop, rowRfmt, rowLoad, rowStore]) (rs rt : RegIdx)
    (low : Half) (rf : RegFile) : legalDE (decodedLatch row rs rt low rf) := by
  simp only [List.mem_cons, List.not_mem_nil, or_false] at hrow
  obtain rfl | rfl | rfl | rfl := hrow <;>
    simp [legalDE, decodedLatch, rowNop, rowRfmt, rowLoad, rowStore, aluOpRfmt]

/-- Decode latches a row, or leaves the write side. -/
theorem legalDE_of_decodedDE {i : Instr} {s : State} {de : DELatch} (h : decodedDE (actionOf i) s = .ok de)
    (hlegal : legalDE s.write.de) : legalDE de := by
  cases haction : actionOf i with
  | latch row rs rt low =>
    rw [haction, decodedDE_latch] at h
    cases h
    exact legalDE_decodedLatch (row_of_actionOf haction) rs rt low s.regs
  | unhandled word =>
    rw [haction, decodedDE] at h
    split at h <;> cases h
    exact hlegal

/-- Execute passes four controls of a row through. -/
theorem legalEM_executedLatch {d : DELatch} (h : legalDE d) (result : Word) (dest : RegIdx) :
    legalEM (executedLatch d result dest) := by
  simp only [legalDE, List.mem_cons, List.not_mem_nil, or_false, Prod.mk.injEq] at h
  obtain ⟨-, -, hread, htoReg, hwrite, -, hreg⟩ | ⟨-, -, hread, htoReg, hwrite, -, hreg⟩ |
    ⟨-, -, hread, htoReg, hwrite, -, hreg⟩ | ⟨-, -, hread, htoReg, hwrite, -, hreg⟩ := h <;>
    simp [legalEM, executedLatch, hread, htoReg, hwrite, hreg]

/-- Memory-Access passes two controls of a row through. -/
theorem legalMW_accessedLatch {e : EMLatch} (h : legalEM e) (loaded : Word) : legalMW (accessedLatch e loaded) := by
  simp only [legalEM, List.mem_cons, List.not_mem_nil, or_false, Prod.mk.injEq] at h
  obtain ⟨-, htoReg, -, hreg⟩ | ⟨-, htoReg, -, hreg⟩ | ⟨-, htoReg, -, hreg⟩ | ⟨-, htoReg, -, hreg⟩ := h <;>
    simp [legalMW, accessedLatch, htoReg, hreg]

/-- Settles O55: each latch's controls come from the latch before it, DE's from a row or from the write side. -/
theorem controlSignalsStayLegal : Obligations.ControlSignalsStayLegal := by
  rintro s t hlegal hstep
  obtain ⟨-, w, rest, -, ⟨c, -, rfl⟩ | hcomplete⟩ := exec_next_cases_due hstep
  · exact hlegal
  obtain ⟨hwriteDE, hreadDE, -, hreadEM, -, -⟩ := hlegal
  have hDE : legalDE t.read.de := legalDE_of_decodedDE (decodedDE_of_completesTo hcomplete) hwriteDE
  have hEM : legalEM t.read.em := by
    obtain ⟨result, dest, hem⟩ := readEM_of_completesTo hcomplete
    rw [hem]
    exact legalEM_executedLatch hreadDE result dest
  have hMW : legalMW t.read.mw := by
    rw [readMW_eq_of_completesTo hcomplete]
    exact legalMW_accessedLatch hreadEM _
  rw [legalControls, ← read_eq_write_of_completesTo hcomplete]
  exact ⟨hDE, hDE, hEM, hEM, hMW, hMW⟩

/-! ## The snapshots -/

/-- A snapshot added at the end links on where its read sides are the last write sides. -/
theorem linkedSnapshots_append {first last : LatchSide} {snaps : List Snapshot} {p : Snapshot}
    (h : linkedSnapshots first snaps p.read) (hlast : p.write = last) : linkedSnapshots first (snaps ++ [p]) last := by
  induction snaps generalizing first with
  | nil => exact ⟨h.symm, hlast⟩
  | cons q snaps ih =>
    obtain ⟨hq, hmore⟩ := h
    exact ⟨hq, ih hmore⟩

/-- Settles O56: a completed step adds one snapshot (O27), which links on; a fault adds none. -/
theorem snapshotsStayLinked : Obligations.SnapshotsStayLinked := by
  rintro s t ⟨hlength, hlinked⟩ hstep
  obtain ⟨-, w, rest, -, ⟨c, -, rfl⟩ | hcomplete⟩ := exec_next_cases_due hstep
  · exact ⟨hlength, hlinked⟩
  rw [snapshotsLinked, snapshotShowsTheStep _ s t hcomplete, steps_of_completesTo hcomplete]
  refine ⟨by simp [hlength], ?_⟩
  exact linkedSnapshots_append hlinked (read_eq_write_of_completesTo hcomplete).symm

/-! ## The fault record -/

/-- Every fault due at a decoded word is truthful; an unhandled opcode's, because the decoder answers it for such words
only. -/
theorem truthfulCause_of_dueFault {i : Instr} {s : State} {c : FaultCause} (hwf : i.wellFormed = true)
    (h : dueFault i s = some c) : truthfulCause c s.config.unhandledMode := by
  obtain h | h | h := dueFault_eq_some h
  · obtain ⟨op, rest, rfl, hmode, rfl⟩ := decodeFault_eq_some h
    rw [truthfulCause, fieldOp_packOpcode]
    exact ⟨hmode, wellFormed_unhandledOpcode_iff.1 hwf⟩
  · obtain ⟨⟨-, -, hadd, hsub, hmode⟩, rfl⟩ := executeFault_eq_some h
    exact ⟨hmode, hadd, hsub⟩
  · obtain ⟨⟨-, hrange⟩, rfl⟩ := memoryFault_eq_some h
    exact hrange

/-- Settles O57: the record a step writes is that of the fault due; a completed step writes none. -/
theorem faultRecordStaysTruthful : Obligations.FaultRecordStaysTruthful := by
  rintro s t - hstep
  obtain ⟨-, w, rest, -, ⟨c, hdue, rfl⟩ | ⟨-, hrun⟩⟩ := exec_next_cases_due hstep
  · exact ⟨truthfulCause_of_dueFault (wellFormed_decode _) hdue, rfl, rfl⟩
  · rw [truthfulFault, hrun]
    trivial

end Sys2Proof.Machine
end

section
/-! The stages of a completed step, whatever instruction stands in Decode (40_pipeline.md sections 2 to 6). -/

namespace Sys2Proof.Machine

/-! ## Fetch -/

theorem dueFault_with_input (i : Instr) (s : State) (ws : List Word) :
    dueFault i { s with input := ws } = dueFault i s := by cases i <;> rfl

theorem decodedDE_with_input (d : DecodeAction) (s : State) (ws : List Word) :
    decodedDE d { s with input := ws } = decodedDE d s := by cases d <;> rfl

theorem not_running_takeFault (c : FaultCause) (s : State) : ¬ running (takeFault c s) := by
  rw [running, takeFault_fault]
  exact Option.some_ne_none _

/-- Settles O16: no stage reads the word to fetch, so with another word the same fault is due or the stages answer the
same. -/
theorem fetchLatchesEveryWord : Obligations.FetchLatchesEveryWord := by
  intro i s t w w' rest hstep
  obtain ⟨hrun, _, _, hinput, ⟨c, hdue, rfl⟩ | hcomplete⟩ := exec_next_cases_due hstep
  · cases hinput
    rw [dueFault_with_input, ← dueFault_with_input i s (w' :: rest)] at hdue
    exact ⟨_, exec_of_dueFault hrun rfl hdue, fun h => absurd h (not_running_takeFault _ _), fun _ => rfl⟩
  · obtain ⟨-, _, _, de, em, m, v, hinput, hdecode, hexecute, haccess, rfl⟩ := completes_iff.1 hcomplete
    cases hinput
    rw [decodedDE_with_input, ← decodedDE_with_input _ s (w' :: rest)] at hdecode
    have hcomplete' : completesTo i { s with input := w' :: rest } _ :=
      completes_iff.2 ⟨hrun, w', rest, de, em, m, v, rfl, hdecode, hexecute, haccess, rfl⟩
    exact ⟨_, hcomplete'.1, fun _ => ⟨rfl, rfl, rfl⟩, fun h => absurd hcomplete.2 h⟩

/-! ## Decode -/

/-- An instruction that Decode latches reads its two register fields. -/
theorem operandRegs_of_latch {i : Instr} {row : ControlRow} {rs rt : RegIdx} {low : Half}
    (h : actionOf i = .latch row rs rt low) : operandRegs i = some (rs, rt) := by
  cases i <;> cases h <;> rfl

theorem operandRegs_of_unhandled {i : Instr} {word : Word} (h : actionOf i = .unhandled word) : operandRegs i = none := by
  cases i <;> cases h
  rfl

/-- DE after the step of an instruction that Decode latches. -/
theorem readDE_of_latch {i : Instr} {s t : State} {row : ControlRow} {rs rt : RegIdx} {low : Half}
    (h : completesTo i s t) (haction : actionOf i = .latch row rs rt low) :
    t.read.de = decodedLatch row rs rt low s.regs := by
  have hdecode := decodedDE_of_completesTo h
  rw [haction, decodedDE_latch] at hdecode
  exact (Except.ok.inj hdecode).symm

/-- Decode reads its two operands from the registers as they stand before the step's Write-Back (R102, R106). -/
theorem latchesOperands_of_completesTo {i : Instr} {s t : State} (h : completesTo i s t) :
    latchesOperands i (regGet s.regs) t := by
  intro r q hoperands
  cases haction : actionOf i with
  | latch row rs rt low =>
    rw [operandRegs_of_latch haction] at hoperands
    cases hoperands
    rw [readDE_of_latch h haction]
    exact ⟨rfl, rfl⟩
  | unhandled word =>
    rw [operandRegs_of_unhandled haction] at hoperands
    cases hoperands

/-- Settles O25: no operation on the register file tells index 0 apart, so this is Write-Back and Decode's operand read at
index 0. -/
theorem registerZeroIsUnprotected : Obligations.RegisterZeroIsUnprotected := by
  refine ⟨regGet_resetWith_zero, fun i s t hstep => ?_, fun r rd x f imm i s t hstep => ⟨fun hi => ?_, fun hi => ?_⟩⟩
  · rw [regs_of_completesTo hstep, regGet_writeBackRegs, writeBackValue]
    simp only [eq_comm]
  · have hoperands : ∃ q, operandRegs i = some (0, q) := by
      simp only [List.mem_cons, List.not_mem_nil, or_false] at hi
      obtain rfl | rfl | rfl | rfl | rfl | rfl := hi <;> exact ⟨_, rfl⟩
    obtain ⟨q, hq⟩ := hoperands
    exact (latchesOperands_of_completesTo hstep 0 q hq).1
  · have hoperands : ∃ q, operandRegs i = some (q, 0) := by
      simp only [List.mem_cons, List.not_mem_nil, or_false] at hi
      obtain rfl | rfl | rfl | rfl | rfl | rfl := hi <;> exact ⟨_, rfl⟩
    obtain ⟨q, hq⟩ := hoperands
    exact (latchesOperands_of_completesTo hstep q 0 hq).2

/-! ## Execute -/

section
variable {i : Instr} {s t : State} (h : completesTo i s t)
include h

theorem readEM_of_register {r : Word} (hbranch : registerBranch s.read.de = true)
    (hr : aluRegister s.read.de.funct s.read.de.readData1 s.read.de.readData2 = some r) :
    t.read.em = executedLatch s.read.de r s.read.de.writeRegR :=
  Except.ok.inj ((executeLatch_of_completesTo h).symm.trans (executeLatch_register hbranch hr))

/-- An unhandled function gets past Execute in Retain mode only, and keeps the write side's result. -/
theorem readEM_of_stale (hbranch : registerBranch s.read.de = true)
    (hr : aluRegister s.read.de.funct s.read.de.readData1 s.read.de.readData2 = none) :
    s.config.unhandledMode = .retain ∧
      t.read.em = executedLatch s.read.de s.write.em.aluResult s.read.de.writeRegR := by
  obtain ⟨-, r, hr', -⟩ | ⟨-, -, hmode, hem⟩ | ⟨hno, -⟩ := executeLatch_ok (executeLatch_of_completesTo h)
  · rw [hr] at hr'; cases hr'
  · exact ⟨hmode, hem⟩
  · rw [hbranch] at hno; cases hno

theorem readEM_of_immediate (hbranch : registerBranch s.read.de = false) :
    t.read.em = executedLatch s.read.de (s.read.de.readData1 + s.read.de.seOffset) s.read.de.writeRegI :=
  Except.ok.inj ((executeLatch_of_completesTo h).symm.trans (executeLatch_immediate hbranch))

/-- The register-format branch takes the R-format destination, with whatever result. -/
theorem writeRegNum_of_registerBranch (hbranch : registerBranch s.read.de = true) :
    t.read.em.writeRegNum = s.read.de.writeRegR := by
  cases hr : aluRegister s.read.de.funct s.read.de.readData1 s.read.de.readData2 with
  | some r => rw [readEM_of_register h hbranch hr]; rfl
  | none => rw [(readEM_of_stale h hbranch hr).2]; rfl

end

/-- Settles O18: the ALU's result by function, which on numbers is the sum or difference modulo `2 ^ 32` in both readings. -/
theorem registerFormatResult : Obligations.RegisterFormatResult := by
  intro i s t hstep hop hsrc
  have hbranch : registerBranch s.read.de = true := registerBranch_iff.2 ⟨hop, hsrc⟩
  refine ⟨writeRegNum_of_registerBranch hstep hbranch, fun hfunct => ?_, fun hfunct => ?_⟩
  · have hresult : t.read.em.aluResult = s.read.de.readData1 + s.read.de.readData2 := by
      rw [readEM_of_register hstep hbranch (by rw [hfunct]; exact aluRegister_add _ _)]; rfl
    rw [hresult]
    exact ⟨BitVec.toNat_add .., by rw [BitVec.ofInt_add, BitVec.ofInt_toInt, BitVec.ofInt_toInt]⟩
  · have hresult : t.read.em.aluResult = s.read.de.readData1 - s.read.de.readData2 := by
      rw [readEM_of_register hstep hbranch (by rw [hfunct]; exact aluRegister_sub _ _)]; rfl
    rw [hresult]
    exact ⟨by rw [BitVec.toNat_sub, Nat.add_comm], by
      rw [Int.sub_eq_add_neg, BitVec.ofInt_add, BitVec.ofInt_neg, BitVec.ofInt_toInt, BitVec.ofInt_toInt,
        BitVec.sub_eq_add_neg]⟩

/-- Settles O19: the ALU has no result for the function, so Execute did not fault because the mode is Retain. -/
theorem unhandledFunctKeepsStaleResult : Obligations.UnhandledFunctKeepsStaleResult := by
  intro i s t hstep hop hsrc hadd hsub
  obtain ⟨hmode, hem⟩ :=
    readEM_of_stale hstep (registerBranch_iff.2 ⟨hop, hsrc⟩) (aluRegister_unhandled _ _ hadd hsub)
  rw [hem]
  exact ⟨hmode, rfl, rfl⟩

/-- Settles O20: Execute's fault needs the register-format branch, and only Memory-Access's fault has an address. -/
theorem immediateBranchAddsOffset : Obligations.ImmediateBranchAddsOffset := by
  intro i s t hstep himmediate
  refine ⟨fun hrun => ?_, fun r hr => ?_⟩
  · have hbranch : registerBranch s.read.de = false := by
      rw [← Bool.not_eq_true, registerBranch_iff]
      exact himmediate
    rw [readEM_of_immediate ⟨hstep, hrun⟩ hbranch]
    exact ⟨rfl, rfl⟩
  · obtain ⟨-, w, rest, -, ⟨c, hdue, rfl⟩ | ⟨-, hrun⟩⟩ := exec_next_cases_due hstep
    · rw [takeFault_fault] at hr
      cases hr
      obtain hdue | hdue | hdue := dueFault_eq_some hdue
      · obtain ⟨op, r, -, -, rfl⟩ := decodeFault_eq_some hdue
        exact ⟨by simp [faultStage], by simp⟩
      · obtain ⟨⟨hop, hsrc, -⟩, -⟩ := executeFault_eq_some hdue
        exact absurd ⟨hop, hsrc⟩ himmediate
      · obtain ⟨⟨haccess, -⟩, rfl⟩ := memoryFault_eq_some hdue
        exact ⟨by simp [faultStage], fun _ _ => ⟨rfl, haccess⟩⟩
    · rw [hrun] at hr; cases hr

/-! ## Memory-Access -/

/-- Settles O21: of the three things Memory-Access can do, the load. -/
theorem loadReadsWholeWord : Obligations.LoadReadsWholeWord := by
  intro i s t hstep hread
  obtain ⟨-, hrange, hmem, hword⟩ | ⟨hno, -⟩ | ⟨hno, -⟩ := accessMemory_ok (accessMemory_lwData_of_completesTo hstep)
  · exact ⟨hrange, hword, hmem⟩
  · rw [hread] at hno; cases hno
  · rw [hread] at hno; cases hno

end Sys2Proof.Machine
end

section
/-! Faults (60_exceptions.md section 2), and the frame of every step, faulting ones included. -/

namespace Sys2Proof.Machine

/-- Settles O28: a completed step records no fault, so the step is the due fault's. -/
theorem faultKeepsPreStepState : Obligations.FaultKeepsPreStepState := by
  intro i s t r hstep hr
  obtain ⟨hrun, w, rest, hinput, ⟨c, -, rfl⟩ | ⟨-, hnone⟩⟩ := exec_next_cases_due hstep
  · cases hr
    refine ⟨hrun, ?_, rfl, rfl⟩
    rw [hinput]
    rfl
  · rw [hnone] at hr; cases hr

/-- A due fault's record, and no step counted. -/
theorem exec_records_dueFault {i : Instr} {s : State} {w : Word} {rest : List Word} {c : FaultCause} (hrun : running s)
    (hinput : s.input = w :: rest) (hdue : dueFault i s = some c) :
    ∃ t, exec i s = .next t ∧ t.fault = some { cause := c, step := s.steps + 1, stage := faultStage c } ∧
      t.steps = s.steps :=
  ⟨_, exec_of_dueFault hrun hinput hdue, rfl, rfl⟩

/-- Settles O29: the due fault is the first that is there in the order of the stages, and its stage is its kind's. -/
theorem firstFaultInStageOrder : Obligations.FirstFaultInStageOrder := by
  intro i s w rest hrun hinput
  cases hdecode : decodeFault i s with
  | some c =>
    obtain ⟨_, _, -, -, rfl⟩ := decodeFault_eq_some hdecode
    exact exec_records_dueFault hrun hinput (by simp [dueFault, hdecode])
  | none =>
    cases hexecute : executeFault s with
    | some c =>
      obtain ⟨-, rfl⟩ := executeFault_eq_some hexecute
      exact exec_records_dueFault hrun hinput (by simp [dueFault, hdecode, hexecute])
    | none =>
      cases hmemory : memoryFault s with
      | some c =>
        obtain ⟨-, rfl⟩ := memoryFault_eq_some hmemory
        exact exec_records_dueFault hrun hinput (by simp [dueFault, hdecode, hexecute, hmemory])
      | none =>
        obtain ⟨t, ht⟩ := completes_of_no_dueFault hrun hinput (dueFault_eq_none_iff.2 ⟨hdecode, hexecute, hmemory⟩)
        exact ⟨t, ht.1, ht.2, steps_of_completesTo ht⟩

/-- A word negative in two's complement is `2 ^ 31` or more, so far beyond the array (20_memory.md R53). -/
theorem le_toNat_of_toInt_neg {a : Word} (h : a.toInt < 0) : 1024 ≤ a.toNat := by
  rw [BitVec.toInt_eq_toNat_cond] at h
  split at h <;> omega

/-- Settles O30: with no fault due before it, Memory-Access's is the one due exactly where the address is out of range. -/
theorem outOfRangeAccessFaults : Obligations.OutOfRangeAccessFaults := by
  intro i s w rest hrun hinput hdecode hexecute haccess
  refine ⟨fun hout => ?_, fun hin => ?_⟩
  · have hrange : 1024 ≤ s.read.em.aluResult.toNat := hout.elim id le_toNat_of_toInt_neg
    have hdue : dueFault i s = some (.memOutOfRange s.read.em.aluResult) := by
      rw [dueFault, hdecode, hexecute, memoryFault, if_pos ⟨haccess, hrange⟩]
      rfl
    exact exec_of_dueFault hrun hinput hdue
  · have hmemory : memoryFault s = none := by rw [memoryFault, if_neg fun h => absurd h.2 (by omega)]
    exact completes_of_no_dueFault hrun hinput (dueFault_eq_none_iff.2 ⟨hdecode, hexecute, hmemory⟩)

/-- Settles O36: Decode's fault is due before any other stage's. -/
theorem unhandledOpcodeFaultsInDecode : Obligations.UnhandledOpcodeFaultsInDecode := by
  intro s w rest op r hrun hinput hmode
  have hdue : dueFault (.unhandledOpcode op r) s = some (.unhandledOpcode (packOpcode op r)) := by
    rw [dueFault, decodeFault, if_pos hmode, Option.some_or]
  exact exec_of_dueFault hrun hinput hdue

/-- Settles O43: after its Decode the instruction's function and the register-format row stand in Execute's latch, and with
no fault of Decode's, Execute's is the one due. -/
theorem unhandledFunctFaultsInExecute : Obligations.UnhandledFunctFaultsInExecute := by
  intro s t1 w rest rs rt rd x f hmode hadd hsub hstep hinput hdecode
  have hDE := readDE_of_latch hstep rfl
  have hfunct : t1.read.de.funct = f := by rw [hDE]; exact lowFunct_lowRfmt rd x f
  have hop : t1.read.de.aluOp = 0b10#2 := by rw [hDE]; rfl
  have hsrc : t1.read.de.aluSrc = false := by rw [hDE]; rfl
  have hmode' : t1.config.unhandledMode = .fault := by rw [config_of_completesTo hstep, hmode]
  have hexecute : executeFault t1 = some (.unhandledFunct f) := by
    rw [executeFault, hfunct, if_pos ⟨hop, hsrc, hadd, hsub, hmode'⟩]
  have hdue : dueFault (decode t1.read.fd.instr) t1 = some (.unhandledFunct f) := by
    rw [dueFault, hdecode, hexecute]
    rfl
  exact exec_of_dueFault hstep.2 hinput hdue

/-- A completed step leaves every memory word but the one a store addresses. -/
theorem memGet_of_completesTo {i : Instr} {s t : State} {a : Nat} (h : completesTo i s t) (hwf : Memory.wf s.mem)
    (ha : ¬ (s.read.em.memRead = false ∧ s.read.em.memWrite = true ∧ s.read.em.aluResult.toNat = a)) :
    memGet t.mem a = memGet s.mem a := by
  obtain ⟨hstore, hno⟩ := storeChangesOneWord i s t h hwf
  by_cases haccess : s.read.em.memRead = false ∧ s.read.em.memWrite = true
  · obtain ⟨hread, hwrite⟩ := haccess
    exact (hstore hread hwrite).2 a fun heq => ha ⟨hread, hwrite, heq.symm⟩
  · rw [hno (by simpa [or_iff_not_imp_left] using haccess)]

/-- Settles O52: a faulting step leaves everything but the record and the word; a completed one is framed by Write-Back (O24)
and Memory-Access (O22). -/
theorem stepFrame : Obligations.StepFrame := by
  intro i s t hwf hstep
  obtain ⟨-, w, rest, hinput, ⟨c, -, rfl⟩ | hcomplete⟩ := exec_next_cases_due hstep
  · rw [hinput]
    exact ⟨fun _ _ => rfl, fun _ _ => rfl, rfl, rfl, List.prefix_rfl, fun h => absurd h (not_running_takeFault _ _)⟩
  · rw [input_of_completesTo hcomplete, snapshotShowsTheStep i s t hcomplete, regs_of_completesTo hcomplete,
      ← read_eq_write_of_completesTo hcomplete]
    refine ⟨fun q hq => ?_, fun a => memGet_of_completesTo hcomplete hwf, config_of_completesTo hcomplete, rfl,
      List.prefix_append _ _, fun _ => rfl⟩
    rw [regGet_writeBackRegs, if_neg fun h => hq ⟨h.1, h.2.symm⟩]

end Sys2Proof.Machine
end

section
/-! Each instruction in Decode: its step completes from a ready state, and DE holds what the tables give it (41_noop.md to
43_load_store.md; 40_pipeline.md section 3). -/

namespace Sys2Proof.Machine

/-- From a ready state the step of an instruction that Decode latches completes, with the latch on both sides. -/
theorem completes_of_latch {i : Instr} {s : State} {w : Word} {rest : List Word} {row : ControlRow} {rs rt : RegIdx}
    {low : Half} (hready : ready s w rest) (haction : actionOf i = .latch row rs rt low) :
    ∃ t, completesTo i s t ∧ t.steps = s.steps + 1 ∧ t.write.de = t.read.de ∧
      t.read.de = decodedLatch row rs rt low s.regs := by
  obtain ⟨t, hstep, hsteps, -, hDE⟩ := completes_of_ready hready (i := i) (by rw [haction, decodedDE_latch])
  exact ⟨t, hstep, hsteps, by rw [read_eq_write_of_completesTo hstep], hDE⟩

/-- The DE latch of a register-format word: its function and destination come back from the low half. -/
theorem decodedLatch_rfmt (rs rt rd : RegIdx) (x : BitVec 5) (f : Code6) (rf : RegFile) :
    decodedLatch rowRfmt rs rt (lowRfmt rd x f) rf =
      { aluSrc := false, memRead := false, memToReg := false, memWrite := false, regDst := true, regWrite := true,
        aluOp := 0b10#2, seOffset := BitVec.signExtend 32 (rd ++ x ++ f), funct := f, writeRegR := rd,
        writeRegI := rt, readData1 := regGet rf rs, readData2 := regGet rf rt } := by
  rw [decodedLatch, lowFunct_lowRfmt, lowWriteRegR_lowRfmt]
  rfl

/-- Settles O31: the fields of the zero low half are zero. -/
theorem nopCompletes : Obligations.NopCompletes :=
  fun _ _ _ hready => completes_of_latch hready (i := .nop) rfl

/-- Settles O32: the two functions of the register-format latch. -/
theorem addSubComplete : Obligations.AddSubComplete := by
  intro s w rest rs rt rd x hready
  rw [show (0x20#6 : Code6) = functAdd from rfl, show (0x22#6 : Code6) = functSub from rfl, ← decodedLatch_rfmt,
    ← decodedLatch_rfmt]
  exact ⟨completes_of_latch hready rfl, completes_of_latch hready rfl⟩

/-- Settles O33: the latched fields are the low half's by definition. -/
theorem loadCompletes : Obligations.LoadCompletes :=
  fun _ _ _ rs rt imm hready => completes_of_latch hready (i := .load rs rt imm) rfl

/-- Settles O34: the latched fields are the low half's by definition. -/
theorem storeCompletes : Obligations.StoreCompletes :=
  fun _ _ _ rs rt imm hready => completes_of_latch hready (i := .store rs rt imm) rfl

/-- Settles O35: Decode does not look at the function, nor at the mode for such a word. -/
theorem unhandledFunctDecodesAsRfmt : Obligations.UnhandledFunctDecodesAsRfmt := by
  intro s w rest rs rt rd x f hready
  rw [← decodedLatch_rfmt]
  exact completes_of_latch hready rfl

/-- Settles O37: Decode answers the write side's latch. -/
theorem unhandledOpcodeRetainsDecode : Obligations.UnhandledOpcodeRetainsDecode := by
  intro s w rest op r hready hmode
  have hdecode : decodedDE (actionOf (.unhandledOpcode op r)) s = .ok s.write.de :=
    decodedDE_unhandled_retain (packOpcode op r) s hmode
  obtain ⟨t, hstep, hsteps, hwrite, hread⟩ := completes_of_ready hready hdecode
  refine ⟨t, hstep, hsteps, hwrite, hread, fun hsides => ?_⟩
  rw [hread, hsides]

end Sys2Proof.Machine
end

section
/-! Each instruction alone in the pipeline, from Decode to Write-Back: nothing older is in flight and no-ops follow. The four
steps are built forwards, once for all instructions. -/

namespace Sys2Proof.Machine

/-- A completed step from what its stages answer. -/
theorem completesTo_stepped {i : Instr} {s : State} {w : Word} {rest : List Word} {de : DELatch} {em : EMLatch} {m : Memory}
    {v : Word} (hrun : running s) (hinput : s.input = w :: rest) (hdecode : decodedDE (actionOf i) s = .ok de)
    (hexecute : executeLatch s.config.unhandledMode s.write.em.aluResult s.read.de = .ok em)
    (haccess : accessMemory s.read.em s.mem = .ok (m, v)) : completesTo i s (stepped w rest de em m v s) :=
  completes_iff.2 ⟨hrun, w, rest, de, em, m, v, hinput, hdecode, hexecute, haccess, rfl⟩

/-- `t` stands two steps after the Decode of an instruction that was alone in the pipeline of `s`: the instruction is in
Memory-Access with the latch `em`, no-ops are behind it, and no register or memory word has changed. -/
structure AloneInMemoryAccess (s : State) (em : EMLatch) (rest : List Word) (t : State) : Prop where
  running : t.fault = none
  noopInDecode : t.read.fd.instr = 0
  noopInExecute : t.read.de.aluOp = 0 ∧ t.read.de.memRead = false ∧ t.read.de.memWrite = false ∧ t.read.de.regWrite = false
  inMemoryAccess : t.read.em = em
  noWriteBack : t.read.mw.regWrite = false
  regs_eq : t.regs = s.regs
  mem_eq : t.mem = s.mem
  config_eq : t.config = s.config
  steps_eq : t.steps = s.steps + 2
  input_eq : t.input = rest

/-- The first two steps: what was in flight before does no work, and the instruction gets through Decode and Execute. -/
theorem aloneInMemoryAccess_of_drained {i : Instr} {s : State} {de : DELatch} {em : EMLatch} {rest : List Word}
    (hrun : running s) (hdrained : drained s) (hinput : s.input = 0 :: 0 :: rest)
    (hdecode : decodedDE (actionOf i) s = .ok de)
    (hexecute : ∀ old, executeLatch s.config.unhandledMode old de = .ok em) :
    ∃ t1 t2, completesTo i s t1 ∧ step t1 = .next t2 ∧ AloneInMemoryAccess s em rest t2 := by
  obtain ⟨hop, hdeRead, hdeWrite, hdeReg, hemRead, hemWrite, hemReg, hmwReg⟩ := hdrained
  have h1 := completesTo_stepped hrun hinput hdecode (executeLatch_immediate (registerBranch_of_zero hop))
    (accessMemory_neither hemRead hemWrite)
  have h2 := completesTo_stepped (i := .nop) h1.2 rfl (decodedDE_latch ..) (hexecute _)
    (accessMemory_neither hdeRead hdeWrite)
  refine ⟨_, _, h1, (step_of_noop rfl).trans h2.1, ⟨hrun, rfl, ⟨rfl, rfl, rfl, rfl⟩, rfl, hdeReg, ?_, rfl, rfl, rfl, rfl⟩⟩
  calc writeBackRegs (accessedLatch s.read.em 0) (writeBackRegs s.read.mw s.regs)
      = writeBackRegs s.read.mw s.regs := writeBackRegs_of_not _ _ hemReg
    _ = s.regs := writeBackRegs_of_not _ _ hmwReg

/-- The last two steps: Memory-Access and Write-Back do the instruction's work and no other. -/
theorem run_of_aloneInMemoryAccess {s t2 : State} {em : EMLatch} {w v : Word} {rest : List Word} {m : Memory}
    (h : AloneInMemoryAccess s em (0 :: w :: rest) t2) (haccess : accessMemory em s.mem = .ok (m, v)) :
    ∃ t, Host.Core.run core 2 t2 = .next t ∧ running t ∧ t.regs = writeBackRegs (accessedLatch em v) s.regs ∧ t.mem = m ∧
      t.config = s.config ∧ t.steps = s.steps + 4 ∧ t.input = rest := by
  obtain ⟨hrun, hnoop, ⟨hop, hread, hwrite, hreg⟩, hem, hmwReg, hregs, hmem, hconfig, hsteps, hinput⟩ := h
  have h3 := completesTo_stepped (i := .nop) hrun hinput (decodedDE_latch ..)
    (executeLatch_immediate (registerBranch_of_zero hop)) (by rw [hem, hmem]; exact haccess)
  have h4 := completesTo_stepped (i := .nop) h3.2 rfl (decodedDE_latch ..)
    (executeLatch_immediate (registerBranch_of_zero rfl)) (accessMemory_neither hread hwrite)
  have hrun2 := run_succ_next.2 ⟨_, (step_of_noop hnoop).trans h3.1,
    run_succ_next.2 ⟨_, (step_of_noop rfl).trans h4.1, run_zero _⟩⟩
  refine ⟨_, hrun2, h4.2, ?_, rfl, hconfig, congrArg (· + 2) hsteps, rfl⟩
  calc writeBackRegs (accessedLatch t2.read.em v) (writeBackRegs t2.read.mw t2.regs)
      = writeBackRegs (accessedLatch em v) t2.regs := by rw [hem, writeBackRegs_of_not _ _ hmwReg]
    _ = writeBackRegs (accessedLatch em v) s.regs := by rw [hregs]

/-- All four steps. -/
theorem run_of_drained {i : Instr} {s : State} {de : DELatch} {em : EMLatch} {m : Memory} {v w : Word} {rest : List Word}
    (hrun : running s) (hdrained : drained s) (hinput : s.input = 0 :: 0 :: 0 :: w :: rest)
    (hdecode : decodedDE (actionOf i) s = .ok de)
    (hexecute : ∀ old, executeLatch s.config.unhandledMode old de = .ok em)
    (haccess : accessMemory em s.mem = .ok (m, v)) :
    ∃ t1 t, completesTo i s t1 ∧ Host.Core.run core 3 t1 = .next t ∧ running t ∧
      t.regs = writeBackRegs (accessedLatch em v) s.regs ∧ t.mem = m ∧ t.config = s.config ∧ t.steps = s.steps + 4 ∧
      t.input = rest := by
  obtain ⟨t1, t2, h1, h2, halone⟩ := aloneInMemoryAccess_of_drained hrun hdrained hinput hdecode hexecute
  obtain ⟨t, hlast, hend⟩ := run_of_aloneInMemoryAccess halone haccess
  exact ⟨t1, t, h1, run_succ_next.2 ⟨t2, h2, hlast⟩, hend⟩

/-- Settles O38: NOP's controls write no register and access no memory. -/
theorem nopChangesNothing : Obligations.NopChangesNothing := by
  intro s w rest hrun hdrained hinput
  obtain ⟨t1, t, h1, hlast, hend, hregs, hfields⟩ := run_of_drained (i := .nop) hrun hdrained hinput (decodedDE_latch ..)
    (fun _ => executeLatch_immediate (registerBranch_of_zero rfl)) (accessMemory_neither rfl rfl)
  exact ⟨t1, t, h1, hlast, hend, hregs.trans (writeBackRegs_of_not _ _ rfl), hfields⟩

/-- A register-format instruction with an ALU result writes that result into rd, and nothing else. -/
theorem run_of_rfmt {i : Instr} {s : State} {rs rt rd : RegIdx} {x : BitVec 5} {f : Code6} {r w : Word} {rest : List Word}
    (hrun : running s) (hdrained : drained s) (hinput : s.input = 0 :: 0 :: 0 :: w :: rest)
    (haction : actionOf i = .latch rowRfmt rs rt (lowRfmt rd x f))
    (hr : aluRegister f (regGet s.regs rs) (regGet s.regs rt) = some r) :
    ∃ t1 t, completesTo i s t1 ∧ Host.Core.run core 3 t1 = .next t ∧ running t ∧
      regGet t.regs rd = r ∧ (∀ q, q ≠ rd → regGet t.regs q = regGet s.regs q) ∧
      t.mem = s.mem ∧ t.config = s.config ∧ t.steps = s.steps + 4 ∧ t.input = rest := by
  have hdecode : decodedDE (actionOf i) s = .ok (decodedLatch rowRfmt rs rt (lowRfmt rd x f) s.regs) := by
    rw [haction, decodedDE_latch]
  rw [decodedLatch_rfmt] at hdecode
  obtain ⟨t1, t, h1, hlast, hend, hregs, hfields⟩ := run_of_drained hrun hdrained hinput hdecode
    (fun _ => executeLatch_register rfl hr) (accessMemory_neither rfl rfl)
  refine ⟨t1, t, h1, hlast, hend, ?_, fun q hq => ?_, hfields⟩
  · rw [hregs]; exact regGet_regSet_same ..
  · rw [hregs]; exact regGet_regSet_other _ _ hq

/-- Settles O39: the sum and the difference are the ALU's results for the two functions. -/
theorem addSubChangeOnlyDestination : Obligations.AddSubChangeOnlyDestination :=
  fun _ _ _ rs rt rd x hrun hdrained hinput =>
    ⟨run_of_rfmt (i := .add rs rt rd x) hrun hdrained hinput rfl (aluRegister_add _ _),
      run_of_rfmt (i := .sub rs rt rd x) hrun hdrained hinput rfl (aluRegister_sub _ _)⟩

/-- Settles O40: Memory-Access answers the addressed word and Write-Back puts it into rt. -/
theorem loadChangesOnlyDestination : Obligations.LoadChangesOnlyDestination := by
  intro s w rest rs rt imm hrun hdrained hinput hrange
  obtain ⟨t1, t, h1, hlast, hend, hregs, hfields⟩ := run_of_drained (i := .load rs rt imm) hrun hdrained hinput
    (decodedDE_latch ..) (fun _ => executeLatch_immediate (registerBranch_of_zero rfl)) (accessMemory_load rfl hrange)
  refine ⟨t1, t, h1, hlast, hend, ?_, fun q hq => ?_, hfields⟩
  · rw [hregs]; exact regGet_regSet_same ..
  · rw [hregs]; exact regGet_regSet_other _ _ hq

/-- Settles O41: Memory-Access replaces the addressed word, and Write-Back writes nothing. -/
theorem storeChangesOnlyItsWord : Obligations.StoreChangesOnlyItsWord := by
  intro s w rest rs rt imm hrun hdrained hwf hinput hrange
  obtain ⟨t1, t, h1, hlast, hend, hregs, hmem, hfields⟩ := run_of_drained (i := .store rs rt imm) hrun hdrained hinput
    (decodedDE_latch ..) (fun _ => executeLatch_immediate (registerBranch_of_zero rfl)) (accessMemory_store rfl rfl hrange)
  refine ⟨t1, t, h1, hlast, hend, ?_, fun a ha => ?_, hregs.trans (writeBackRegs_of_not _ _ rfl), hfields⟩
  · rw [hmem]; exact (memGet_memSet _ _ _ _ hwf.1).trans (if_pos rfl)
  · rw [hmem]; exact (memGet_memSet _ _ _ _ hwf.1).trans (if_neg ha)

/-- An access out of range by an instruction that was alone in the pipeline faults, with registers and memory untouched. -/
theorem step_faults_of_aloneInMemoryAccess {s t2 : State} {em : EMLatch} {w : Word} {rest : List Word}
    (h : AloneInMemoryAccess s em (w :: rest) t2) (haccess : em.memRead = true ∨ em.memWrite = true)
    (hrange : 1024 ≤ em.aluResult.toNat) :
    ∃ t, step t2 = .next t ∧
      t.fault = some { cause := .memOutOfRange em.aluResult, step := s.steps + 3, stage := .memoryAccess } ∧
      t.regs = s.regs ∧ t.mem = s.mem ∧ t.steps = s.steps + 2 := by
  obtain ⟨hrun, hnoop, ⟨hop, -⟩, rfl, -, hregs, hmem, -, hsteps, hinput⟩ := h
  have hexecute : executeFault t2 = none := by rw [executeFault, if_neg fun h => absurd (hop.symm.trans h.1) (by decide)]
  have hfault := (outOfRangeAccessFaults .nop t2 w rest hrun hinput rfl hexecute haccess).1 (.inl hrange)
  refine ⟨_, (step_of_noop hnoop).trans hfault, ?_, hregs, hmem, hsteps⟩
  simp [hsteps]

/-- Settles O42: two steps after its Decode the instruction is in Memory-Access with the address out of range. -/
theorem outOfRangeInstructionFaults : Obligations.OutOfRangeInstructionFaults := by
  rintro s w rest rs rt imm i hrun hdrained hinput hrange hi
  have haccess : ∃ row, actionOf i = .latch row rs rt imm ∧ row.aluOp = 0 ∧ (row.memRead = true ∨ row.memWrite = true) := by
    obtain rfl | rfl := hi
    · exact ⟨rowLoad, rfl, rfl, .inl rfl⟩
    · exact ⟨rowStore, rfl, rfl, .inr rfl⟩
  obtain ⟨row, haction, hop, haccess⟩ := haccess
  obtain ⟨t1, t2, h1, h2, halone⟩ := aloneInMemoryAccess_of_drained hrun hdrained hinput
    (by rw [haction, decodedDE_latch]) (fun _ => executeLatch_immediate (registerBranch_of_zero hop))
  obtain ⟨t, h3, hend⟩ := step_faults_of_aloneInMemoryAccess halone haccess hrange
  exact ⟨t1, t2, t, h1, h2, halone.running, h3, hend⟩

end Sys2Proof.Machine
end

section
/-! Instructions among others: what reaches memory and the registers two and three steps after a Decode, whatever else is in
flight (70_reset_and_hazards.md section 3). -/

namespace Sys2Proof.Machine

/-- A step that ends running completes the decoded instruction's. -/
theorem completesTo_of_step {s t : State} (h : step s = .next t) (ht : running t) :
    completesTo (decode s.read.fd.instr) s t := ⟨h, ht⟩

theorem completesTo_of_run_two {s t : State} (h : Host.Core.run core 2 s = .next t) (ht : running t) :
    ∃ u i j, completesTo i s u ∧ completesTo j u t := by
  obtain ⟨u, hu, h⟩ := run_succ_next.1 h
  obtain ⟨t', ht', h⟩ := run_succ_next.1 h
  cases h
  exact ⟨u, _, _, completesTo_of_step hu (running_of_exec ht'), completesTo_of_step ht' ht⟩

theorem completesTo_of_run_three {s t : State} (h : Host.Core.run core 3 s = .next t) (ht : running t) :
    ∃ u v i j k, completesTo i s u ∧ completesTo j u v ∧ completesTo k v t := by
  obtain ⟨u, v, hu, hurun, hv, hvrun, hlast, -⟩ := run_three h ht
  exact ⟨u, v, _, _, _, completesTo_of_step hu hurun, completesTo_of_step hv hvrun, completesTo_of_step hlast ht⟩

/-! ## From Execute to Write-Back -/

/-- The registers two steps after a state, as the EM latch of that state decides. -/
theorem regGet_two_steps {i j : Instr} {s t u : State} (h1 : completesTo i s t) (h2 : completesTo j t u) (q : RegIdx) :
    regGet u.regs q =
      if s.read.em.regWrite = true ∧ q = s.read.em.writeRegNum then
        (if s.read.em.memToReg = true then t.read.mw.lwData else s.read.em.aluResult)
      else regGet t.regs q := by
  rw [regs_of_completesTo h2, regGet_writeBackRegs, readMW_eq_of_completesTo h1]
  rfl

section
variable {i j1 j2 j3 : Instr} {s t1 t2 t3 t4 : State} (h : completesTo i s t1) (h1 : completesTo j1 t1 t2)
  (h2 : completesTo j2 t2 t3) (h3 : completesTo j3 t3 t4)
include h h1 h2 h3

/-- A register-format instruction's ALU result is in rd three steps after its Decode. -/
theorem regGet_of_rfmt {rs rt rd : RegIdx} {x : BitVec 5} {f : Code6} {r : Word}
    (haction : actionOf i = .latch rowRfmt rs rt (lowRfmt rd x f))
    (hr : aluRegister f (regGet s.regs rs) (regGet s.regs rt) = some r) (q : RegIdx) :
    regGet t4.regs q = if q = rd then r else regGet t3.regs q := by
  have hDE := readDE_of_latch h haction
  rw [decodedLatch_rfmt] at hDE
  have hEM : t2.read.em = executedLatch t1.read.de r t1.read.de.writeRegR :=
    readEM_of_register h1 (by rw [hDE]; rfl) (by rw [hDE]; exact hr)
  rw [regGet_two_steps h2 h3, hEM, hDE]
  simp [executedLatch]

/-- With an unhandled function it is the stale result that the write side held after the instruction's Decode. -/
theorem regGet_of_stale {rs rt rd : RegIdx} {x : BitVec 5} {f : Code6}
    (haction : actionOf i = .latch rowRfmt rs rt (lowRfmt rd x f))
    (hr : aluRegister f (regGet s.regs rs) (regGet s.regs rt) = none) :
    regGet t4.regs rd = t1.write.em.aluResult := by
  have hDE := readDE_of_latch h haction
  rw [decodedLatch_rfmt] at hDE
  have hEM : t2.read.em = executedLatch t1.read.de t1.write.em.aluResult t1.read.de.writeRegR :=
    (readEM_of_stale h1 (by rw [hDE]; rfl) (by rw [hDE]; exact hr)).2
  rw [regGet_two_steps h2 h3, hEM, hDE]
  simp [executedLatch]

end

/-- A memory-format instruction in Memory-Access, two steps after its Decode. -/
theorem readEM_of_memoryFormat {i j : Instr} {s t1 t2 : State} {row : ControlRow} {rs rt : RegIdx} {imm : Half}
    (haction : actionOf i = .latch row rs rt imm) (hop : row.aluOp = 0) (h : completesTo i s t1)
    (h1 : completesTo j t1 t2) :
    t2.read.em = executedLatch t1.read.de (regGet s.regs rs + imm.signExtend 32) rt := by
  have hDE := readDE_of_latch h haction
  rw [readEM_of_immediate h1 (registerBranch_of_zero (by rw [hDE]; exact hop)), hDE]
  rfl

/-- A load's address is in range and its word, as it stands when its Memory-Access begins, is in rt three steps after its
Decode. -/
theorem regGet_of_load {j1 j2 j3 : Instr} {s t1 t2 t3 t4 : State} {rs rt : RegIdx} {imm : Half}
    (h : completesTo (.load rs rt imm) s t1) (h1 : completesTo j1 t1 t2) (h2 : completesTo j2 t2 t3)
    (h3 : completesTo j3 t3 t4) :
    (regGet s.regs rs + imm.signExtend 32).toNat < 1024 ∧
      ∀ q, regGet t4.regs q =
        if q = rt then memGet t2.mem (regGet s.regs rs + imm.signExtend 32).toNat else regGet t3.regs q := by
  have hEM := readEM_of_memoryFormat (i := .load rs rt imm) rfl rfl h h1
  rw [readDE_of_latch h rfl] at hEM
  obtain ⟨hrange, hword, -⟩ := loadReadsWholeWord j2 t2 t3 h2 (by rw [hEM]; rfl)
  rw [hEM] at hrange hword
  refine ⟨hrange, fun q => ?_⟩
  rw [regGet_two_steps h2 h3, hword, hEM]
  simp [executedLatch, decodedLatch, rowLoad]

/-- Settles O44: the ALU has no result for the function. -/
theorem staleResultIsWrittenBack : Obligations.StaleResultIsWrittenBack := by
  intro s t1 t rs rt rd x f _ hadd hsub hstep hrun3 hrun
  obtain ⟨t2, t3, _, _, _, h1, h2, h3⟩ := completesTo_of_run_three hrun3 hrun
  exact regGet_of_stale hstep h1 h2 h3 rfl (aluRegister_unhandled _ _ hadd hsub)

/-- Settles O45: the ALU's results for the two functions. -/
theorem aluResultAmongOthers : Obligations.AluResultAmongOthers := by
  intro s t1 t rs rt rd x hrun3 hrun
  obtain ⟨t2, t3, _, _, _, h1, h2, h3⟩ := completesTo_of_run_three hrun3 hrun
  refine ⟨fun hstep => ?_, fun hstep => ?_⟩
  · rw [regGet_of_rfmt hstep h1 h2 h3 rfl (aluRegister_add _ _), if_pos rfl]
  · rw [regGet_of_rfmt hstep h1 h2 h3 rfl (aluRegister_sub _ _), if_pos rfl]

/-- Settles O46: the state two steps after the Decode began is the one whose memory the load reads. -/
theorem loadResultAmongOthers : Obligations.LoadResultAmongOthers := by
  intro s t1 t2 t rs rt imm hstep hstep1 hrun1 hrun2 hrun
  obtain ⟨t3, _, _, h2, h3⟩ := completesTo_of_run_two hrun2 hrun
  obtain ⟨hrange, hregs⟩ := regGet_of_load hstep (completesTo_of_step hstep1 hrun1) h2 h3
  exact ⟨hrange, by rw [hregs, if_pos rfl]⟩

/-- A store's address is in range in a Memory-Access that completes. -/
theorem inRange_of_store {i : Instr} {s t : State} (h : completesTo i s t) (hread : s.read.em.memRead = false)
    (hwrite : s.read.em.memWrite = true) : s.read.em.aluResult.toNat < 1024 := by
  obtain ⟨hload, -⟩ | ⟨-, -, hrange, -⟩ | ⟨-, hidle, -⟩ := accessMemory_ok (accessMemory_lwData_of_completesTo h)
  · rw [hread] at hload; cases hload
  · exact hrange
  · rw [hwrite] at hidle; cases hidle

/-- Settles O47: the step after the next one is STORE's Memory-Access, framed by O22. -/
theorem storeEffectAmongOthers : Obligations.StoreEffectAmongOthers := by
  intro s t1 t2 t rs rt imm hwf hstep hstep1 hrun1 hstep2 hrun
  have h1 := completesTo_of_step hstep1 hrun1
  have h2 := completesTo_of_step hstep2 hrun
  have hEM := readEM_of_memoryFormat (i := .store rs rt imm) rfl rfl hstep h1
  rw [readDE_of_latch hstep rfl] at hEM
  have hread : t2.read.em.memRead = false := by rw [hEM]; rfl
  have hwrite : t2.read.em.memWrite = true := by rw [hEM]; rfl
  have hrange := inRange_of_store h2 hread hwrite
  have hstore := (storeChangesOneWord _ t2 t h2 (mem_wf_of_completesTo h1 (mem_wf_of_completesTo hstep hwf))).1 hread hwrite
  rw [hEM] at hrange hstore
  exact ⟨hrange, hstore⟩

/-- Settles O49: the load reads the memory that the store's step left. -/
theorem loadSeesStoreJustBefore : Obligations.LoadSeesStoreJustBefore := by
  intro s t u i j hwf hstep hstep' hread hwrite hload haddress
  obtain ⟨-, hword, -⟩ := loadReadsWholeWord j t u hstep' hload
  rw [hword, haddress, ((storeChangesOneWord i s t hstep hwf).1 hread hwrite).1]

/-! ## Hazard distance -/

/-- With nothing older in flight no register changes in the three steps from an instruction's Decode. -/
theorem regs_of_drained {i j1 j2 : Instr} {s t1 t2 t3 : State} (hdrained : drained s) (h : completesTo i s t1)
    (h1 : completesTo j1 t1 t2) (h2 : completesTo j2 t2 t3) :
    t1.regs = s.regs ∧ t2.regs = s.regs ∧ t3.regs = s.regs := by
  obtain ⟨-, -, -, hdeReg, -, -, hemReg, hmwReg⟩ := hdrained
  obtain ⟨-, -, -, hem1, -⟩ := executeCopiesControls i s t1 h
  obtain ⟨-, hmw1, -, -⟩ := memoryAccessPassesThrough i s t1 h
  obtain ⟨-, hmw2, -, -⟩ := memoryAccessPassesThrough j1 t1 t2 h1
  have hregs1 : t1.regs = s.regs := by rw [regs_of_completesTo h, writeBackRegs_of_not _ _ hmwReg]
  have hregs2 : t2.regs = t1.regs := by rw [regs_of_completesTo h1, writeBackRegs_of_not _ _ (hmw1.trans hemReg)]
  have hregs3 : t3.regs = t2.regs := by
    rw [regs_of_completesTo h2, writeBackRegs_of_not _ _ (hmw2.trans (hem1.trans hdeReg))]
  exact ⟨hregs1, hregs2.trans hregs1, hregs3.trans (hregs2.trans hregs1)⟩

/-- Settles O48: every Decode reads the registers of the state it starts from, and the producer's result is in its register
from its fourth step on. -/
theorem hazardDistanceIsFour : Obligations.HazardDistanceIsFour := by
  intro s t1 t2 t3 t4 t5 i j1 j2 j3 j4 r v hproducer h h1 h2 h3 h4
  have hresult : regGet t4.regs = fun q => if q = r then v else regGet t3.regs q := by
    funext q
    obtain ⟨rs, rt, x, ⟨rfl, rfl⟩ | ⟨rfl, rfl⟩⟩ | ⟨rs, imm, rfl, rfl⟩ := hproducer
    · exact regGet_of_rfmt h h1 h2 h3 rfl (aluRegister_add _ _) q
    · exact regGet_of_rfmt h h1 h2 h3 rfl (aluRegister_sub _ _) q
    · exact (regGet_of_load h h1 h2 h3).2 q
  have hj1 := latchesOperands_of_completesTo h1
  have hj2 := latchesOperands_of_completesTo h2
  have hj3 := latchesOperands_of_completesTo h3
  have hj4 := latchesOperands_of_completesTo h4
  rw [hresult] at hj4
  refine ⟨hj1, hj2, hj3, hj4, fun hdrained => ?_⟩
  obtain ⟨hregs1, hregs2, hregs3⟩ := regs_of_drained hdrained h h1 h2
  rw [hregs1] at hj1
  rw [hregs2] at hj2
  rw [hregs3] at hj3 hj4
  exact ⟨hj1, hj2, hj3, hj4⟩

end Sys2Proof.Machine
end

section
/-! The ignored bits 10–6 of a register-format word (30_encoding.md R74): how far they reach. -/

namespace Sys2Proof.Machine

/-- `s` with other DE latches and snapshots, the only fields that ignored bits reach. -/
def withDE (s : State) (writeDE readDE : DELatch) (snapshots : List Snapshot) : State :=
  { s with write.de := writeDE, read.de := readDE, snapshots := snapshots }

theorem differInIgnoredBits_iff {s s' : State} :
    differInIgnoredBits s s' ↔
      ∃ writeDE readDE snapshots, sameUpToIgnored s.write.de writeDE ∧ sameUpToIgnored s.read.de readDE ∧
        s.snapshots.map blankSnapshot = snapshots.map blankSnapshot ∧ s' = withDE s writeDE readDE snapshots := by
  constructor
  · rintro ⟨hwrite, hread, hsnapshots, heq⟩
    exact ⟨_, _, _, hwrite, hread, hsnapshots, heq⟩
  · rintro ⟨writeDE, readDE, snapshots, hwrite, hread, hsnapshots, rfl⟩
    exact ⟨hwrite, hread, hsnapshots, rfl⟩

theorem blankOffset_eq {d e : DELatch} (h : sameUpToIgnored d e) : blankOffset d = blankOffset e := by
  obtain rfl | ⟨h, -⟩ := h
  · rfl
  · exact h

/-- Two latches alike up to the offset are one with the offset replaced. -/
theorem eq_with_seOffset {d e : DELatch} (h : blankOffset d = blankOffset e) : e = { d with seOffset := e.seOffset } := by
  obtain ⟨⟩ := d
  obtain ⟨⟩ := e
  cases h
  rfl

/-- The register-format branch does not read the offset, so Execute answers the same (R113). -/
theorem executeLatch_of_sameUpToIgnored {d e : DELatch} (mode : UnhandledMode) (old : Word) (h : sameUpToIgnored d e) :
    executeLatch mode old d = executeLatch mode old e := by
  obtain rfl | ⟨hblank, hop, hsrc⟩ := h
  · rfl
  have hbranch : registerBranch d = true := registerBranch_iff.2 ⟨hop, hsrc⟩
  have hbranch' (o : Word) : registerBranch { d with seOffset := o } = true := hbranch
  rw [eq_with_seOffset hblank]
  unfold executeLatch
  rw [if_pos hbranch, if_pos (hbranch' _)]
  rfl

/-- Decode answers alike latches: the same one, or the alike write sides. -/
theorem decodedDE_withDE {d : DecodeAction} {s : State} {de writeDE : DELatch} (readDE : DELatch)
    (snapshots : List Snapshot) (hdecode : decodedDE d s = .ok de) (hwrite : sameUpToIgnored s.write.de writeDE) :
    ∃ de', decodedDE d (withDE s writeDE readDE snapshots) = .ok de' ∧ sameUpToIgnored de de' := by
  cases d with
  | latch row rs rt low => exact ⟨de, hdecode, .inl rfl⟩
  | unhandled word =>
    cases hmode : s.config.unhandledMode with
    | fault => rw [decodedDE_unhandled_fault word s hmode] at hdecode; cases hdecode
    | retain =>
      rw [decodedDE_unhandled_retain word s hmode] at hdecode
      rw [← Except.ok.inj hdecode]
      exact ⟨writeDE, decodedDE_unhandled_retain word _ hmode, hwrite⟩

/-- The same fault is due. -/
theorem dueFault_withDE (i : Instr) {s : State} (writeDE : DELatch) {readDE : DELatch} (snapshots : List Snapshot)
    (hread : sameUpToIgnored s.read.de readDE) : dueFault i (withDE s writeDE readDE snapshots) = dueFault i s := by
  have hdecode : decodeFault i (withDE s writeDE readDE snapshots) = decodeFault i s := by cases i <;> rfl
  have hexecute : executeFault (withDE s writeDE readDE snapshots) = executeFault s := by
    apply Option.ext
    intro c
    rw [← executeLatch_eq_error_iff, ← executeLatch_eq_error_iff, executeLatch_of_sameUpToIgnored _ _ hread]
    rfl
  have hmemory : memoryFault (withDE s writeDE readDE snapshots) = memoryFault s := rfl
  rw [dueFault, dueFault, hdecode, hexecute, hmemory]

/-- Completed steps that latch alike and answer the same otherwise. -/
theorem differInIgnoredBits_stepped (w : Word) (rest : List Word) {de de' : DELatch} (em : EMLatch) (m : Memory) (v : Word)
    {s : State} (writeDE : DELatch) {readDE : DELatch} {snapshots : List Snapshot} (hde : sameUpToIgnored de de')
    (hread : sameUpToIgnored s.read.de readDE)
    (hsnapshots : s.snapshots.map blankSnapshot = snapshots.map blankSnapshot) :
    differInIgnoredBits (stepped w rest de em m v s) (stepped w rest de' em m v (withDE s writeDE readDE snapshots)) := by
  refine ⟨hde, hde, ?_, rfl⟩
  simp only [stepped, steppedSide, withDE, List.map_append, hsnapshots, List.map_cons, List.map_nil, blankSnapshot,
    blankOffset_eq hde, blankOffset_eq hread]

/-- Two states that only ignored bits tell apart have steps that end in two such states. -/
theorem exec_of_differInIgnoredBits {i : Instr} {s s' t : State} (h : differInIgnoredBits s s')
    (hstep : exec i s = .next t) :
    ∃ t', exec i s' = .next t' ∧ differInIgnoredBits t t' := by
  obtain ⟨writeDE, readDE, snapshots, hwrite, hread, hsnapshots, rfl⟩ := differInIgnoredBits_iff.1 h
  obtain ⟨hrun, w, rest, hinput, ⟨c, hdue, rfl⟩ | hcomplete⟩ := exec_next_cases_due hstep
  · rw [← dueFault_withDE i writeDE snapshots hread] at hdue
    exact ⟨_, exec_of_dueFault hrun hinput hdue, hwrite, hread, hsnapshots, rfl⟩
  · obtain ⟨-, w, rest, de, em, m, v, hinput, hdecode, hexecute, haccess, rfl⟩ := completes_iff.1 hcomplete
    obtain ⟨de', hdecode', hde⟩ := decodedDE_withDE readDE snapshots hdecode hwrite
    rw [executeLatch_of_sameUpToIgnored _ _ hread] at hexecute
    have hcomplete' : completesTo i (withDE s writeDE readDE snapshots) _ :=
      completesTo_stepped hrun hinput hdecode' hexecute haccess
    exact ⟨_, hcomplete'.1, differInIgnoredBits_stepped w rest em m v writeDE hde hread hsnapshots⟩

/-- What Decode latches of two words that differ in the ignored bits. -/
theorem sameUpToIgnored_decodedLatch (rs rt rd : RegIdx) (x x' : BitVec 5) (f : Code6) (rf : RegFile) :
    sameUpToIgnored (decodedLatch rowRfmt rs rt (lowRfmt rd x f) rf) (decodedLatch rowRfmt rs rt (lowRfmt rd x' f) rf) := by
  rw [decodedLatch_rfmt, decodedLatch_rfmt]
  exact .inr ⟨by simp only [blankOffset], rfl, rfl⟩

/-- Two register-format words that differ in the ignored bits have the same step, but for the latched offset. -/
theorem exec_of_ignoredBits {i i' : Instr} {s t : State} {rs rt rd : RegIdx} {x x' : BitVec 5} {f : Code6}
    (haction : actionOf i = .latch rowRfmt rs rt (lowRfmt rd x f))
    (haction' : actionOf i' = .latch rowRfmt rs rt (lowRfmt rd x' f)) (hstep : exec i s = .next t) :
    ∃ t', exec i' s = .next t' ∧ differInIgnoredBits t t' := by
  have hdecode : decodedDE (actionOf i) s = .ok (decodedLatch rowRfmt rs rt (lowRfmt rd x f) s.regs) := by
    rw [haction, decodedDE_latch]
  have hdecode' : decodedDE (actionOf i') s = .ok (decodedLatch rowRfmt rs rt (lowRfmt rd x' f) s.regs) := by
    rw [haction', decodedDE_latch]
  obtain ⟨hrun, w, rest, hinput, ⟨c, hdue, rfl⟩ | hcomplete⟩ := exec_next_cases_due hstep
  · rw [dueFault, fault_none_of_ok (decodedDE_eq_error_iff i s) hdecode,
      ← fault_none_of_ok (decodedDE_eq_error_iff i' s) hdecode'] at hdue
    exact ⟨_, exec_of_dueFault hrun hinput hdue, .inl rfl, .inl rfl, rfl, rfl⟩
  · obtain ⟨-, w, rest, de, em, m, v, hinput, hde, hexecute, haccess, rfl⟩ := completes_iff.1 hcomplete
    rw [hdecode] at hde
    rw [← Except.ok.inj hde]
    exact ⟨_, (completesTo_stepped hrun hinput hdecode' hexecute haccess).1,
      differInIgnoredBits_stepped w rest em m v s.write.de (sameUpToIgnored_decodedLatch rs rt rd x x' f s.regs)
        (.inl rfl) rfl⟩

/-- Settles O50: a step from one state starts the relation, every step keeps it, and it leaves registers, memory and the
fault record equal. -/
theorem ignoredBitsReachOnlyTheOffset : Obligations.IgnoredBitsReachOnlyTheOffset := by
  refine ⟨fun s t rs rt rd x x' f => ⟨?_, ?_, ?_⟩, fun s s' t i => exec_of_differInIgnoredBits, fun s s' h => ?_⟩
  · exact exec_of_ignoredBits rfl rfl
  · exact exec_of_ignoredBits rfl rfl
  · exact exec_of_ignoredBits rfl rfl
  · obtain ⟨_, _, _, -, -, -, rfl⟩ := differInIgnoredBits_iff.1 h
    exact ⟨rfl, rfl, rfl⟩

end Sys2Proof.Machine
end

section
/-! An unhandled opcode in Retain mode against a NOP in its place (60_exceptions.md R205; 70_reset_and_hazards.md R244). The
retained decode makes each later stage do once more what it did for the instruction before, and each of these repetitions
changes nothing. The two runs are followed side by side: after the four steps they differ in DE, in EM, in MW and in no
latch. -/

namespace Sys2Proof.Machine

/-! ## Doing a stage's work twice -/

/-- Execute on the same latch again answers the same, the stale result included. -/
theorem executeLatch_again {mode : UnhandledMode} {old : Word} {d : DELatch} {e : EMLatch}
    (h : executeLatch mode old d = .ok e) : executeLatch mode e.aluResult d = .ok e := by
  obtain ⟨hbranch, r, hr, rfl⟩ | ⟨hbranch, hr, rfl, rfl⟩ | ⟨hbranch, rfl⟩ := executeLatch_ok h
  · exact executeLatch_register hbranch hr
  · exact executeLatch_stale hbranch hr
  · exact executeLatch_immediate hbranch

/-- Memory-Access on the same latch again loads the same word, or stores the same word again. -/
theorem accessMemory_again {e : EMLatch} {m m' : Memory} {v : Word} (hwf : Memory.wf m)
    (h : accessMemory e m = .ok (m', v)) : accessMemory e m' = .ok (m', v) := by
  obtain ⟨hread, hrange, rfl, rfl⟩ | ⟨hread, hwrite, hrange, rfl, rfl⟩ | ⟨hread, hwrite, rfl, rfl⟩ := accessMemory_ok h
  · exact accessMemory_load hread hrange
  · rw [accessMemory_store hread hwrite hrange, memSet_memSet _ _ _ hwf.1]
  · exact accessMemory_neither hread hwrite

/-- Write-Back from the same latch again writes the same value. -/
theorem writeBackRegs_again (m : MWLatch) (rf : RegFile) : writeBackRegs m (writeBackRegs m rf) = writeBackRegs m rf := by
  cases hreg : m.regWrite with
  | false => rw [writeBackRegs_of_not _ _ hreg, writeBackRegs_of_not _ _ hreg]
  | true => rw [writeBackRegs, writeBackRegs, if_pos hreg, if_pos hreg, regSet_regSet]

/-- Execute does not look at the stale result for the latch of an instruction whose row is neither that of an unhandled
function nor that of an unhandled opcode. -/
theorem executeLatch_of_handled {i : Instr} {s t : State} (h : completesTo i s t) (hfunct : rowOf i ≠ 4) (hop : rowOf i ≠ 7)
    (mode : UnhandledMode) (old old' : Word) : executeLatch mode old t.read.de = executeLatch mode old' t.read.de := by
  have himmediate (hzero : t.read.de.aluOp = 0) :
      executeLatch mode old t.read.de = executeLatch mode old' t.read.de := by
    have hbranch := registerBranch_of_zero hzero
    rw [executeLatch_immediate hbranch, executeLatch_immediate hbranch]
  have hregister {r : Word} (hbranch : registerBranch t.read.de = true)
      (hr : aluRegister t.read.de.funct t.read.de.readData1 t.read.de.readData2 = some r) :
      executeLatch mode old t.read.de = executeLatch mode old' t.read.de := by
    rw [executeLatch_register hbranch hr, executeLatch_register hbranch hr]
  cases i with
  | nop | load | store => exact himmediate (by rw [readDE_of_latch h rfl]; rfl)
  | add rs rt rd x | sub rs rt rd x =>
    have hDE := readDE_of_latch h rfl
    rw [decodedLatch_rfmt] at hDE
    exact hregister (by rw [hDE]; rfl) (by rw [hDE]; rfl)
  | rfmtUnhandledFunct => exact absurd rfl hfunct
  | unhandledOpcode => exact absurd rfl hop

theorem actionOf_of_handled {i : Instr} (hop : rowOf i ≠ 7) : ∃ row rs rt low, actionOf i = .latch row rs rt low := by
  cases i with
  | unhandledOpcode => exact absurd rfl hop
  | _ => exact ⟨_, _, _, _, rfl⟩

/-! ## The two runs side by side -/

/-- `s` with another EM latch on both sides, and other snapshots. -/
def withEM (s : State) (em : EMLatch) (snapshots : List Snapshot) : State :=
  { s with write.em := em, read.em := em, snapshots := snapshots }

/-- `s` with another MW latch on both sides, and other snapshots. -/
def withMW (s : State) (mw : MWLatch) (snapshots : List Snapshot) : State :=
  { s with write.mw := mw, read.mw := mw, snapshots := snapshots }

/-- Decode: the unhandled opcode keeps the latch `s` had, where NOP writes its own. -/
theorem completes_retained_decode {s u : State} (op : Code6) (r : BitVec 26) (hmode : s.config.unhandledMode = .retain)
    (h : completesTo .nop s u) :
    ∃ snapshots, completesTo (.unhandledOpcode op r) s (withDE u s.write.de s.write.de snapshots) := by
  obtain ⟨hrun, w, rest, de, em, m, v, hinput, -, hexecute, haccess, rfl⟩ := completes_iff.1 h
  exact ⟨_, completesTo_stepped hrun hinput (decodedDE_unhandled_retain (packOpcode op r) s hmode) hexecute haccess⟩

/-- Execute: the latch `d` leaves `em`, where NOP's leaves its own. -/
theorem completes_retained_execute {i : Instr} {u u' : State} {d : DELatch} {em : EMLatch} (snapshots : List Snapshot)
    (hop : rowOf i ≠ 7) (h : completesTo i u u')
    (hexecute : executeLatch u.config.unhandledMode u.write.em.aluResult d = .ok em) :
    ∃ snapshots', completesTo i (withDE u d d snapshots) (withEM u' em snapshots') := by
  obtain ⟨row, rs, rt, low, haction⟩ := actionOf_of_handled hop
  obtain ⟨hrun, w, rest, de, _, m, v, hinput, hdecode, -, haccess, rfl⟩ := completes_iff.1 h
  have hdecode' : decodedDE (actionOf i) (withDE u d d snapshots) = .ok de := by
    rw [haction] at hdecode ⊢
    exact hdecode
  exact ⟨_, completesTo_stepped hrun hinput hdecode' hexecute haccess⟩

theorem decodedDE_withEM (d : DecodeAction) (s : State) (em : EMLatch) (snapshots : List Snapshot) :
    decodedDE d (withEM s em snapshots) = decodedDE d s := by cases d <;> rfl

theorem decodedDE_withMW (d : DecodeAction) (s : State) (mw : MWLatch) (snapshots : List Snapshot) :
    decodedDE d (withMW s mw snapshots) = decodedDE d s := by cases d <;> rfl

/-- Memory-Access: the latch `em` leaves memory as it is, as NOP's does. -/
theorem completes_retained_access {i : Instr} {u u' : State} {em : EMLatch} {v : Word} (snapshots : List Snapshot)
    (h : completesTo i u u')
    (hexecute : ∀ old old', executeLatch u.config.unhandledMode old u.read.de =
      executeLatch u.config.unhandledMode old' u.read.de)
    (hmem : u'.mem = u.mem) (haccess : accessMemory em u.mem = .ok (u.mem, v)) :
    ∃ snapshots', completesTo i (withEM u em snapshots) (withMW u' (accessedLatch em v) snapshots') := by
  obtain ⟨hrun, w, rest, de, em', m, _, hinput, hdecode, hexecute', -, rfl⟩ := completes_iff.1 h
  have hm : m = u.mem := hmem
  subst hm
  rw [← decodedDE_withEM _ u em snapshots] at hdecode
  rw [hexecute _ em.aluResult] at hexecute'
  exact ⟨_, completesTo_stepped hrun hinput hdecode hexecute' haccess⟩

/-- Write-Back: the latch `mw` leaves the registers as they are, as NOP's does. -/
theorem completes_retained_writeBack {i : Instr} {u u' : State} {mw : MWLatch} (snapshots : List Snapshot)
    (h : completesTo i u u') (hregs : u'.regs = writeBackRegs mw u.regs) :
    ∃ snapshots', completesTo i (withMW u mw snapshots) { u' with snapshots := snapshots' } := by
  obtain ⟨hrun, w, rest, de, em, m, v, hinput, hdecode, hexecute, haccess, rfl⟩ := completes_iff.1 h
  rw [← decodedDE_withMW _ u mw snapshots] at hdecode
  have hcomplete : completesTo i (withMW u mw snapshots) _ := completesTo_stepped hrun hinput hdecode hexecute haccess
  refine ⟨(stepped w rest de em m v (withMW u mw snapshots)).snapshots, ?_⟩
  rw [hregs]
  exact hcomplete

/-- Two steps after a NOP's Decode, Memory-Access and, after it, Write-Back do nothing. -/
theorem idle_of_nop {j k : Instr} {s u1 u2 u3 : State} (h : completesTo .nop s u1) (h1 : completesTo j u1 u2)
    (h2 : completesTo k u2 u3) : u3.mem = u2.mem ∧ u3.read.mw.regWrite = false := by
  obtain ⟨-, -, hwrite, hreg, -⟩ := executeCopiesControls j u1 u2 h1
  obtain ⟨-, hmwReg, -⟩ := memoryAccessPassesThrough k u2 u3 h2
  rw [readDE_of_latch h rfl] at hwrite hreg
  exact ⟨accessMemory_ok_of_no_store (accessMemory_lwData_of_completesTo h2) (.inr hwrite), hmwReg.trans hreg⟩

/-- Settles O51: after the Decode of each run the states differ in DE, after the next step in EM, then in MW, then in the
snapshots alone. -/
theorem retainedOpcodeActsAsNop : Obligations.RetainedOpcodeActsAsNop := by
  intro s u1 u op r hmode hsides hwf h hfunct hop hrun3 hrun
  obtain ⟨u2, u3, hu2, hu2run, hu3, hu3run, hlast, -⟩ := run_three hrun3 hrun
  have h1 := completesTo_of_step hu2 hu2run
  have h2 := completesTo_of_step hu3 hu3run
  have h3 := completesTo_of_step hlast hrun
  obtain ⟨hmem, hreg⟩ := idle_of_nop h h1 h2
  have hexecute : executeLatch u1.config.unhandledMode u1.write.em.aluResult s.write.de = .ok u1.read.em := by
    rw [config_of_completesTo h, ← read_eq_write_of_completesTo h, ← hsides]
    exact executeLatch_again (executeLatch_of_completesTo h)
  have haccess : accessMemory u1.read.em u2.mem = .ok (u2.mem, u2.read.mw.lwData) :=
    accessMemory_again (mem_wf_of_completesTo h hwf) (accessMemory_lwData_of_completesTo h1)
  have hregs : u.regs = writeBackRegs (accessedLatch u1.read.em u2.read.mw.lwData) u3.regs := by
    rw [← readMW_eq_of_completesTo h1, regs_of_completesTo h3, writeBackRegs_of_not _ _ hreg, regs_of_completesTo h2,
      writeBackRegs_again]
  obtain ⟨snapshots1, g⟩ := completes_retained_decode op r hmode h
  obtain ⟨snapshots2, g1⟩ := completes_retained_execute snapshots1 hop h1 hexecute
  obtain ⟨snapshots3, g2⟩ := completes_retained_access snapshots2 h2
    (fun old old' => executeLatch_of_handled h1 hfunct hop _ old old') hmem haccess
  obtain ⟨snapshots4, g3⟩ := completes_retained_writeBack snapshots3 h3 hregs
  exact ⟨_, _, g, run_succ_next.2 ⟨_, g1.1, run_succ_next.2 ⟨_, g2.1, run_succ_next.2 ⟨_, g3.1, run_zero _⟩⟩⟩, rfl⟩

end Sys2Proof.Machine
end
